-- ==== Sys2Proof/Word.lean ====
section
/-!
DEFINITION. The words of the UART polling controller: the byte every register and access carries (00_scope R8), the
12-bit request word of a bus operation (30_encoding R110), and the names of the six registers of the window (10_state R33).
-/

namespace Sys2Proof

/-- A register or bus value: 8 bits, unsigned (00_scope R8, R9). -/
abbrev Byte := BitVec 8

/-- A bus request word: 12 bits (30_encoding R110). -/
abbrev ReqWord := BitVec 12

/-- An operand of the divisor compute unit: `ARITH_WIDTH` = 32 bits (00_scope R8, 40_baud_divisor R140). -/
abbrev ArithWord := BitVec 32

/-- The registers of the window by name (10_state R33); offset 3 has none. -/
inductive Reg where
  | ucsra | ucsrb | ucsrc | ubrrl | ubrrh | udr
  deriving DecidableEq, Repr

end Sys2Proof
end

