-- ==== Sys2Proof/Config.lean ====
section
/-!
DEFINITION. What an implementation fixes and what the spec leaves free: the parameters of 00_scope R8 and the free values.
An `opaque` constant has no body: nothing proved here can rest on its value.
-/

namespace Sys2Proof.Config

/-- `UART_BASE`, the data-space address of register offset 0: OPEN (00_scope R8, D2). Log 8. -/
opaque uartBase : Nat

/-- `RX_DEPTH` less one: the depth is OPEN and at least 1 (00_scope R8, D13). Log 7. -/
opaque rxDepthLessOne : Nat

/-- `RX_DEPTH`, the number of received frames the receive buffer holds: OPEN, at least 1 (00_scope R8, D13). Log 7. -/
def rxDepth : Nat := rxDepthLessOne + 1

/-- `UBRR_WIDTH`, the width of the divisor register in bits (00_scope R8, D4). -/
def ubrrWidth : Nat := 12

/-- `ARITH_WIDTH`, the width of the divisor compute unit's operands (00_scope R8, D5). -/
def arithWidth : Nat := 32

/-- The two values of the parameter `SIGNED8_MODE` (00_scope R8, 44_host_driver R281, D27). -/
inductive Signed8Mode where
  | rawByte | decimal
  deriving DecidableEq, Repr

/-- The parameters of the host sequences (00_scope R8): named arguments of every sequence that reads them. -/
structure HostParams where
  /-- `STRING_STOP_ON_HIGH_BIT` (44_host_driver R274, D26). -/
  stringStopOnHighBit : Bool
  /-- `SIGNED8_MODE` (44_host_driver R281, D27). -/
  signed8Mode : Signed8Mode
  deriving DecidableEq, Repr

/-- The values 00_scope R8 gives: the source's behaviour. Log 9. -/
def hostParams : HostParams := { stringStopOnHighBit := true, signed8Mode := .rawByte }

/-- One turn of one agent (00_scope R7, 60_exceptions R337): the host's next access, a transmitter step (42_transmit R220,
R221), or a frame delivered by the line (43_receive R250). -/
inductive Turn where
  | host
  | txLoad
  | txShift
  | rxFrame (b : Byte) (stopOk : Bool)
  deriving DecidableEq, Repr, Inhabited

/-- The free draw of a UDR read with an empty receive buffer, the `n`-th draw: any byte, under no law (43_receive R241).
Log 6. -/
opaque freeByte : Nat → Byte

/-- The free choice of the agent that moves next, the `n`-th draw, with the line's free inputs (00_scope R7, 43_receive R250,
60_exceptions R337). Log 4. -/
opaque freeTurn : Nat → Turn

/-- How many free turns stand before the `n`-th turn that weak fairness obliges: any number (42_transmit R223,
44_host_driver R270). Log 4. -/
opaque gap : Nat → Nat

/-- The quotient output of the divisor compute unit at `baud = 0`, where the spec does not evaluate the formula, by `clk`
(40_baud_divisor R141). Log 18. -/
opaque divisorAtZeroBaud : ArithWord → ArithWord

end Sys2Proof.Config
end

