-- ==== Sys2Proof/Syntax.lean ====
section
/-!
DEFINITION. The abstract syntax of the bus operations: one constructor per row of spec/opcode_table.json (30_encoding R113).
-/

namespace Sys2Proof

/-- The twelve admitted bus operations (30_encoding R113). A write carries its data byte `v` = D unchanged (R111); a read
carries nothing, since its data field must be 0. -/
inductive Instr where
  /-- `RD UCSRA` (41_config_registers R170). -/
  | rdUcsra
  /-- `WR UCSRA, v` (41_config_registers R171). -/
  | wrUcsra (v : Byte)
  /-- `RD UCSRB` (41_config_registers R179). -/
  | rdUcsrb
  /-- `WR UCSRB, v` (41_config_registers R180). -/
  | wrUcsrb (v : Byte)
  /-- `RD UCSRC` (41_config_registers R185). -/
  | rdUcsrc
  /-- `WR UCSRC, v` (41_config_registers R186). -/
  | wrUcsrc (v : Byte)
  /-- `RD UBRRL` (41_config_registers R191). -/
  | rdUbrrl
  /-- `WR UBRRL, v` (41_config_registers R192). -/
  | wrUbrrl (v : Byte)
  /-- `RD UBRRH` (41_config_registers R193). -/
  | rdUbrrh
  /-- `WR UBRRH, v` (41_config_registers R194). -/
  | wrUbrrh (v : Byte)
  /-- `RD UDR` (43_receive R240). -/
  | rdUdr
  /-- `WR UDR, v` (42_transmit R210). -/
  | wrUdr (v : Byte)
  deriving DecidableEq, Repr

end Sys2Proof
end

