-- ==== Sys2Proof/WellFormed.lean ====
section
/-!
DEFINITION. Which requests are well formed. An `Instr` has no ill-formed term: its only operand is a byte and the decoder
admits every byte (95_test_vectors V-E13). The checks of the spec are on the fields of a request word, before it names an
operation (30_encoding R113 to R115), and that is where they stand here.
-/

namespace Sys2Proof

/-- The fields of a request word (30_encoding R110): W (1 = write), A (register offset), D (write data). -/
structure Request where
  write  : Bool
  offset : BitVec 3
  data   : Byte
  deriving DecidableEq, Repr

/-- The offset is one of the window's six registers: neither 3 nor 7 (30_encoding R115). -/
def Request.offsetOk (r : Request) : Bool := r.offset != 3 && r.offset != 7

/-- A read has data field 0x00 (30_encoding R110, R115). -/
def Request.readDataOk (r : Request) : Bool := r.write || r.data == 0

/-- The request is one of the 1542 admitted ones (30_encoding R115). -/
def Request.wellFormed (r : Request) : Bool := r.offsetOk && r.readDataOk

end Sys2Proof
end

