-- ==== Sys2Proof/Decode.lean ====
section
/-!
DEFINITION. The decoder of request words, total on every 12-bit word (30_encoding R114), the encoder (R110, R113), and the
register offsets (10_state R33).
-/

namespace Sys2Proof

/-- Why a request word is reserved (30_encoding R114, R115). -/
inductive Reserved where
  /-- A = 3 or A = 7. -/
  | reservedOffset
  /-- W = 0 with D other than 0x00. -/
  | reservedReadData
  deriving DecidableEq, Repr

/-- What the decoder answers: an operation, or the reservation the word falls under (30_encoding R114). -/
inductive Decoded where
  | op (i : Instr)
  | reserved (r : Reserved)
  deriving DecidableEq, Repr

/-- The operation a decoded word stands for, if it stands for one. -/
def Decoded.instr? : Decoded → Option Instr
  | .op i => some i
  | .reserved _ => none

/-- The fields of a request word: W = w[11], A = w[10:8], D = w[7:0] (30_encoding R110). -/
def Request.ofWord (w : ReqWord) : Request :=
  { write := w.getLsbD 11, offset := w.extractLsb' 8 3, data := w.extractLsb' 0 8 }

/-- The request word with the given fields: W ++ A ++ D (30_encoding R110). -/
def Request.toWord (r : Request) : ReqWord := BitVec.ofBool r.write ++ r.offset ++ r.data

/-- `register_of` (30_encoding R114); offsets 3 and 7 have no register. -/
def regOf (off : BitVec 3) : Option Reg :=
  if off = 0 then some .ucsra
  else if off = 1 then some .ucsrb
  else if off = 2 then some .ucsrc
  else if off = 4 then some .ubrrl
  else if off = 5 then some .ubrrh
  else if off = 6 then some .udr
  else none

/-- The offset of a register (10_state R33). -/
def Reg.offset : Reg → BitVec 3
  | .ucsra => 0
  | .ucsrb => 1
  | .ucsrc => 2
  | .ubrrl => 4
  | .ubrrh => 5
  | .udr => 6

/-- The read of a register (30_encoding R113). -/
def readOf : Reg → Instr
  | .ucsra => .rdUcsra
  | .ucsrb => .rdUcsrb
  | .ucsrc => .rdUcsrc
  | .ubrrl => .rdUbrrl
  | .ubrrh => .rdUbrrh
  | .udr => .rdUdr

/-- The write of `v` to a register (30_encoding R113). -/
def writeOf (r : Reg) (v : Byte) : Instr :=
  match r with
  | .ucsra => .wrUcsra v
  | .ucsrb => .wrUcsrb v
  | .ucsrc => .wrUcsrc v
  | .ubrrl => .wrUbrrl v
  | .ubrrh => .wrUbrrh v
  | .udr => .wrUdr v

/-- The decoder on fields (30_encoding R114): the offset first, then a read's data field, then the operation. -/
def decodeRequest (r : Request) : Decoded :=
  match regOf r.offset with
  | none => .reserved .reservedOffset
  | some reg =>
    if r.write = false ∧ r.data ≠ 0 then .reserved .reservedReadData
    else .op (if r.write then writeOf reg r.data else readOf reg)

/-- The decoder, total on every 12-bit word (30_encoding R114). -/
def decode (w : ReqWord) : Decoded := decodeRequest (Request.ofWord w)

/-- The request fields of an operation, one row of the opcode map each (30_encoding R113). -/
def Instr.request : Instr → Request
  | .rdUcsra => ⟨false, 0, 0⟩
  | .wrUcsra v => ⟨true, 0, v⟩
  | .rdUcsrb => ⟨false, 1, 0⟩
  | .wrUcsrb v => ⟨true, 1, v⟩
  | .rdUcsrc => ⟨false, 2, 0⟩
  | .wrUcsrc v => ⟨true, 2, v⟩
  | .rdUbrrl => ⟨false, 4, 0⟩
  | .wrUbrrl v => ⟨true, 4, v⟩
  | .rdUbrrh => ⟨false, 5, 0⟩
  | .wrUbrrh v => ⟨true, 5, v⟩
  | .rdUdr => ⟨false, 6, 0⟩
  | .wrUdr v => ⟨true, 6, v⟩

/-- The request word of an operation (30_encoding R110, R113). -/
def encode (i : Instr) : ReqWord := i.request.toWord

/-- What the decoder reads from an instruction whose bits, numbered as spec/opcode_table.json numbers them, are `w`: every
operation is exactly one 12-bit word (30_encoding R110, R116), so a number with a higher bit set is no request. Log 19. -/
def decodeTableWord (_nbits w : Nat) : Option Instr :=
  if w < 4096 then (decode (BitVec.ofNat 12 w)).instr? else none

end Sys2Proof
end

