-- ==== Sys2Proof/Machine/State.lean ====
section
/-!
DEFINITION. The state of the machine: the block's record S (10_state R30), the host agent's position, memory and last result
(44_host_driver), and the model's own fields for what the spec leaves free; the marks and their reasons (60_exceptions R331
to R335); the reset state (10_state R50).
-/

namespace Sys2Proof.Machine

/-- The fault reasons, a closed list (60_exceptions R334). -/
inductive FaultReason where
  /-- `WR UDR` with TXEN = 0 (42_transmit R211). -/
  | txDisabled
  /-- `WR UDR` with a full data buffer (42_transmit R212). -/
  | txOverrun
  /-- `initialize` with an invalid (baud, clock) pair (40_baud_divisor R144). -/
  | baudConfigInvalid
  deriving DecidableEq, Repr

/-- The refusal reasons, a closed list (60_exceptions R335). -/
inductive RefusalReason where
  /-- A request with A = 3 or A = 7 (41_config_registers R190). -/
  | reservedOffset
  /-- A read request with D other than 0 (30_encoding R115). -/
  | reservedReadData
  /-- An access to the window of a width other than one byte (20_memory R85). -/
  | wideAccess
  /-- `WR UCSRA` with a 1 in bit 4, 3 or 2 (41_config_registers R171). -/
  | errorFlagWrite
  /-- `WR UCSRA` with bit 1 = 1 (41_config_registers R171). -/
  | doubleSpeed
  /-- `WR UCSRA` with bit 0 = 1 (41_config_registers R171). -/
  | multiProcessor
  /-- `WR UCSRB` with a 1 in bits 7:5 (41_config_registers R181). -/
  | interruptEnable
  /-- UCSZ2 = 1, or UCSRC other than 0x06 (41_config_registers R182, R186). -/
  | unsupportedFrame
  /-- TXEN 1 to 0 while the transmitter is busy (41_config_registers R183). -/
  | txDisableBusy
  /-- RXEN 1 to 0 with received data (41_config_registers R184). -/
  | rxDisableNonEmpty
  /-- `WR UBRRH` with a 1 in bits 7:4 (41_config_registers R194). -/
  | reservedBits
  /-- A divisor write while the transmitter is busy (41_config_registers R195). -/
  | baudChangeBusy
  /-- The minimum signed values of `writeSigned8` and `writeSigned16` (44_host_driver R283). -/
  | signedMinValue
  deriving DecidableEq, Repr

/-- What a mark records (60_exceptions R334): the request word of a bus access, or the operands of a host sequence. An
access of another width than one byte has no request word: its address and width are recorded (log 13). -/
inductive Info where
  | word (w : ReqWord)
  | wide (addr width : Nat)
  | baudClk (baud clk : ArithWord)
  | signed8 (v : Byte)
  | signed16 (v : BitVec 16)
  deriving DecidableEq, Repr

/-- An entry of the receive buffer (10_state R30, R47): the byte and its frame-error bit. -/
structure RxEntry where
  data : Byte
  fe   : Bool
  deriving DecidableEq, Repr

/-- What the host does next: the bus operations and pseudo-instructions of 30_encoding R117 and R118, the driver operations of
44_host_driver R271 to R318, and the positions inside them at which the host stands between two of its accesses (10_state
R32). Addresses are natural numbers (log 12). -/
inductive HostOp where
  /-- One bus operation, by its request word (30_encoding R110). -/
  | request (w : ReqWord)
  /-- One host access of `width` bytes at data address `addr`; `v` is the byte written (20_memory R81, R85). -/
  | access (write : Bool) (addr width : Nat) (v : Byte)
  /-- `-> <name>`: bind the byte the last read returned to a host-local name (30_encoding R117). -/
  | bind (name : Nat)
  /-- `PUTC` of a bound name (30_encoding R118; 95_test_vectors P2). -/
  | putName (name : Nat)
  /-- `WAIT <reg>.<bit>` (30_encoding R118). -/
  | wait (reg : Reg) (bit : Fin 8)
  /-- Position inside `WAIT`: the read has returned `t`, `t[bit]` is tested next. -/
  | waitTest (reg : Reg) (bit : Fin 8)
  /-- `GETC -> <name>` (30_encoding R118). -/
  | getName (name : Nat)
  /-- `SETBAUD <baud>, <clk>` (30_encoding R118). -/
  | setBaud (baud clk : ArithWord)
  /-- `ENTXRX` (30_encoding R118). -/
  | enTxRx
  /-- `SETFMT` (30_encoding R118). -/
  | setFmt
  /-- `initialize(baudRate, cpuClockHz)`, also `INIT` (44_host_driver R271). -/
  | initUart (baud clk : ArithWord)
  /-- `writeByte(b)`, also `PUTC` (44_host_driver R272). -/
  | writeByte (b : Byte)
  /-- `readByte()` (44_host_driver R273). -/
  | readByte
  /-- `writeString(p)`, and the position at which the byte at `p` is read next (44_host_driver R274). -/
  | writeString (p : Nat)
  /-- `writeHexNibble(n)` (44_host_driver R275). -/
  | writeHexNibble (n : Byte)
  /-- `writeHex8(v)` (44_host_driver R276). -/
  | writeHex8 (v : Byte)
  /-- `writeHex16(v)` (44_host_driver R277). -/
  | writeHex16 (v : BitVec 16)
  /-- `writeHex32(v)` (44_host_driver R278). -/
  | writeHex32 (v : BitVec 32)
  /-- `writeUnsigned8(v)` (44_host_driver R279). -/
  | writeUnsigned8 (v : Byte)
  /-- `writeUnsigned16(v)` (44_host_driver R280). -/
  | writeUnsigned16 (v : BitVec 16)
  /-- `writeSigned8(v)` (44_host_driver R281). -/
  | writeSigned8 (v : Byte)
  /-- `writeSigned16(v)` (44_host_driver R282). -/
  | writeSigned16 (v : BitVec 16)
  /-- `readLine(buf)` (44_host_driver R318). -/
  | readLine (buf : Nat)
  /-- Position inside `readLine`: `readByte` number `i` of at most `n` has returned. -/
  | lineByte (buf i n : Nat)
  deriving DecidableEq, Repr

/-- Host data memory, and the host's local names: cells in one canonical form, keys strictly rising (log 11, log 16). -/
abbrev Memory := List Host.Cell

/-- The machine. The fields down to `refused` are the block's record S of 10_state R30, name by name; `tasks` to `names` are
the host agent's; `agenda` to `draws` are the model's own (INVENTORY.md, State). -/
structure State where
  /-- RXCIE, UCSRB bit 7. -/
  rxcie : Bool
  /-- TXCIE, UCSRB bit 6. -/
  txcie : Bool
  /-- UDRIE, UCSRB bit 5. -/
  udrie : Bool
  /-- RXEN, receiver enable, UCSRB bit 4. -/
  rxen : Bool
  /-- TXEN, transmitter enable, UCSRB bit 3. -/
  txen : Bool
  /-- UCSZ2, character size bit 2, UCSRB bit 2. -/
  ucsz2 : Bool
  /-- TXB8, ninth transmit bit, UCSRB bit 0. -/
  txb8 : Bool
  /-- UCSRC. -/
  ucsrc : Byte
  /-- TXC, transmit complete, UCSRA bit 6. -/
  txc : Bool
  /-- DOR, data overrun, UCSRA bit 3. -/
  dor : Bool
  /-- U2X, UCSRA bit 1. -/
  u2x : Bool
  /-- MPCM, UCSRA bit 0. -/
  mpcm : Bool
  /-- Divisor bits 11:8. -/
  ubrrh : BitVec 4
  /-- Divisor bits 7:0. -/
  ubrrl : Byte
  /-- The transmit data buffer, none = empty (R45). -/
  txBuf : Option Byte
  /-- The transmit shift register, none = idle (R46). -/
  txShift : Option Byte
  /-- The receive buffer, oldest first (R47). -/
  rxFifo : List RxEntry
  /-- The transmit wire record, in order (R48). -/
  txWire : List Byte
  /-- The fault mark, sticky (60_exceptions R331). -/
  fault : Option (FaultReason × Info)
  /-- The refusal mark, sticky (60_exceptions R332). -/
  refused : Option (RefusalReason × Info)
  /-- The host's position and what it does next, the head first (10_state R32, 44_host_driver R270). -/
  tasks : List HostOp
  /-- What the host's last access returned: a byte for a read, nothing for a write (60_exceptions R330). Log 3. -/
  result : Option Byte
  /-- The host's data memory outside the window: the listed addresses are the ones it admits. Log 11. -/
  hostMem : Memory
  /-- The host-local names and their bytes (30_encoding R117). Log 16. -/
  names : Memory
  /-- Turns already chosen, the next one first. Log 4. -/
  agenda : List Config.Turn
  /-- Free turns taken since the last fair one. Log 4. -/
  waited : Nat
  /-- How many fair turns have been taken. Log 4. -/
  round : Nat
  /-- How many free values have been drawn. Log 6. -/
  draws : Nat
  deriving DecidableEq, Repr

/-- Why the machine stands still with a fault. -/
inductive Fault where
  /-- Raised by `step` and `exec` in a state whose fault mark is set: no agent has a step there (60_exceptions R333). Safe: the
  spec gives such a state no step. -/
  | faulted (r : FaultReason) (info : Info)
  deriving DecidableEq, Repr

/-- Why the machine gives no step. -/
inductive Refusal where
  /-- Raised by `exec` for an operation that has no meaning yet. Safe. No arm answers it. -/
  | notModelled (mnemonic : String)
  /-- Raised by `step` and `exec` in a state whose refusal mark is set: no agent has a step there (60_exceptions R333). Safe:
  the spec gives such a state no step. -/
  | refusedAccess (r : RefusalReason) (info : Info)
  deriving DecidableEq, Repr

/-- The machine right after reset: S as 10_state R50 and 70_reset_and_hazards R360 give it; no host program, no host memory,
no chosen turn (log 3, 4, 6, 10, 11, 16). -/
def State.reset : State :=
  { rxcie := false, txcie := false, udrie := false, rxen := false, txen := false, ucsz2 := false, txb8 := false
    ucsrc := 0x06
    txc := false, dor := false, u2x := false, mpcm := false
    ubrrh := 0x0, ubrrl := 0x00
    txBuf := none, txShift := none, rxFifo := [], txWire := []
    fault := none, refused := none
    tasks := [], result := none, hostMem := [], names := []
    agenda := [], waited := 0, round := 0, draws := 0 }

end Sys2Proof.Machine
end

