-- ==== Sys2Proof/Machine/Flags.lean ====
section
/-!
DEFINITION. The derived flags and register values of the block (10_state R30, R34, R35, R37): every readable bit has its one
definition here.
-/

namespace Sys2Proof.Machine

/-- RXC: the receive buffer holds an unread byte (10_state R39). -/
def State.rxc (s : State) : Bool := !s.rxFifo.isEmpty

/-- UDRE: the transmit data buffer is empty (10_state R41). -/
def State.udre (s : State) : Bool := s.txBuf.isNone

/-- FE: the frame-error bit of the entry at the head of the receive buffer, 0 when it is empty (10_state R42). -/
def State.fe (s : State) : Bool :=
  match s.rxFifo with
  | [] => false
  | e :: _ => e.fe

/-- UPE: 0 always, parity is disabled (10_state R44). -/
def State.upe (_ : State) : Bool := false

/-- RXB8: 0 always (10_state R30, R35). -/
def State.rxb8 (_ : State) : Bool := false

/-- `txBusy`: a byte stands in the data buffer or the shift register (41_config_registers, its header). -/
def State.txBusy (s : State) : Bool := s.txBuf.isSome || s.txShift.isSome

/-- UBRR = UBRRH[3:0] ++ UBRRL, 12 bits (10_state R30, R37). -/
def State.ubrr (s : State) : BitVec 12 := s.ubrrh ++ s.ubrrl

/-- The byte with bit `n` equal to `b` and every other bit 0: the `b << n` of the register layouts. -/
def flagAt (b : Bool) (n : Nat) : Byte := (BitVec.ofBool b).zeroExtend 8 <<< n

/-- The byte with the given bits, bit 7 first. -/
def packBits (b7 b6 b5 b4 b3 b2 b1 b0 : Bool) : Byte :=
  flagAt b7 7 ||| flagAt b6 6 ||| flagAt b5 5 ||| flagAt b4 4 ||| flagAt b3 3 ||| flagAt b2 2 ||| flagAt b1 1 ||| flagAt b0 0

/-- The value UCSRA reads (10_state R34). -/
def State.ucsraValue (s : State) : Byte :=
  packBits s.rxc s.txc s.udre s.fe s.dor s.upe s.u2x s.mpcm

/-- The value UCSRB reads (10_state R35). -/
def State.ucsrbValue (s : State) : Byte :=
  packBits s.rxcie s.txcie s.udrie s.rxen s.txen s.ucsz2 s.rxb8 s.txb8

/-- The value UBRRH reads: bits 7:4 are 0 (10_state R37, 41_config_registers R193). -/
def State.ubrrhValue (s : State) : Byte := (0 : BitVec 4) ++ s.ubrrh

end Sys2Proof.Machine
end

