-- ==== Sys2Proof/Machine/Operands.lean ====
section
/-!
DEFINITION. The operand forms: the fields of a write's data byte (41_config_registers), and the offset a host access at a data
address selects (20_memory R81, R85).
-/

namespace Sys2Proof.Machine

/-- A 1 is written to FE, DOR or UPE: v[4], v[3] or v[2] (41_config_registers R171). -/
def writesErrorFlag (v : Byte) : Bool := v.getLsbD 4 || v.getLsbD 3 || v.getLsbD 2

/-- v[7:5], the three interrupt enables of UCSRB (41_config_registers R181). -/
def interruptEnables (v : Byte) : BitVec 3 := v.extractLsb' 5 3

/-- v[7:4], the reserved bits of UBRRH (41_config_registers R194). -/
def ubrrhReserved (v : Byte) : BitVec 4 := v.extractLsb' 4 4

/-- v[3:0], the divisor bits 11:8 of a UBRRH write (41_config_registers R194). -/
def ubrrhField (v : Byte) : BitVec 4 := v.extractLsb' 0 4

/-- Address decode: the offset a data address selects, `a - UART_BASE` for the seven addresses of the window (20_memory
R81). -/
def windowOffset (a : Nat) : Option (BitVec 3) :=
  if Config.uartBase ≤ a ∧ a ≤ Config.uartBase + 6 then some (BitVec.ofNat 3 (a - Config.uartBase)) else none

/-- An access of `width` bytes at `a` touches the window: it covers at least one of the window's addresses. An access of width 0
counts as one at its own address, so at all seven addresses of the window it is one of the other widths of 20_memory R85 (DESIGN
CHOICE, log 13). -/
def touchesWindow (a width : Nat) : Bool :=
  decide (a ≤ Config.uartBase + 6 ∧ Config.uartBase < a + max width 1)

end Sys2Proof.Machine
end

