-- ==== Sys2Proof/Machine/Ops.lean ====
section
/-!
DEFINITION. The named operations over the state: the marks (60_exceptions R331 to R333), what an access returns to the host
(60_exceptions R330), the free draw (43_receive R241), and the host's memory (44_host_driver, its notation).
-/

namespace Sys2Proof.Machine

/-- The three outcomes of a step over this machine's types. -/
abbrev Result := Host.Outcome State Fault Refusal

/-- Neither mark is set: the only states in which an agent has a step (60_exceptions R333). -/
abbrev State.live (s : State) : Prop := s.fault = none ∧ s.refused = none

/-- `raise Fault(r)`: set the fault mark and change nothing else (60_exceptions R331). -/
def State.raiseFault (s : State) (r : FaultReason) (info : Info) : State := { s with fault := some (r, info) }

/-- `refuse(r)`: set the refusal mark and change nothing else (60_exceptions R332). -/
def State.refuse (s : State) (r : RefusalReason) (info : Info) : State := { s with refused := some (r, info) }

/-- The rules apply only where both marks are none; elsewhere no step is enabled and the machine stands (60_exceptions R333).
Were both marks set, the fault is the one reported (log 2). -/
def whenLive (s : State) (k : Result) : Result :=
  match s.fault with
  | some (r, info) => .fault (.faulted r info)
  | none =>
    match s.refused with
    | some (r, info) => .refused (.refusedAccess r info)
    | none => k

/-- A read has returned `v` to the host (60_exceptions R330). -/
def State.reply (s : State) (v : Byte) : State := { s with result := some v }

/-- A write has completed: nothing is returned (60_exceptions R330). -/
def State.done (s : State) : State := { s with result := none }

/-- The next free byte (43_receive R241). -/
def State.drawnByte (s : State) : Byte := Config.freeByte s.draws

/-- One more free value has been drawn. -/
def State.drew (s : State) : State := { s with draws := s.draws + 1 }

/-- The byte at a key; an unlisted key has no value (log 11). -/
def Memory.read : Memory → Nat → Option Byte
  | [], _ => none
  | (k, v) :: m, a => if a = k then some v else Memory.read m a

/-- The memory with `v` at key `a` and every other key as before, in canonical form. -/
def Memory.write : Memory → Nat → Byte → Memory
  | [], a, v => [(a, v)]
  | (k, w) :: m, a, v =>
    if a < k then (a, v) :: (k, w) :: m
    else if a = k then (a, v) :: m
    else (k, w) :: Memory.write m a v

/-- The canonical form: keys strictly rising, so no key twice. An unlisted key reads as no value, so no entry can equal it. -/
abbrev Memory.wf (m : Memory) : Prop := (m.map Prod.fst).Pairwise (· < ·)

/-- `MemWrite(a, 1, v)` to host memory: none where the memory does not admit the access (44_host_driver, its notation). -/
def State.storeHost (s : State) (a : Nat) (v : Byte) : Option State :=
  match Memory.read s.hostMem a with
  | none => none
  | some _ => some { s with hostMem := Memory.write s.hostMem a v }

/-- Bind `v` to a host-local name (30_encoding R117). -/
def State.bindName (s : State) (name : Nat) (v : Byte) : State := { s with names := Memory.write s.names name v }

/-- The host's tasks replaced. -/
def State.withTasks (s : State) (ts : List HostOp) : State := { s with tasks := ts }

end Sys2Proof.Machine
end

