-- ==== Sys2Proof/Machine/ConfigRegs.lean ====
section
/-!
DEFINITION. The meanings of the accesses to UCSRA, UCSRB, UCSRC, UBRRL and UBRRH (41_config_registers R170 to R195). Every
access is one atomic step (20_memory R86); the conditions of a write are tried in the order its rule lists them (60_exceptions
R336).
-/

namespace Sys2Proof.Machine

/-- `RD UCSRA`: no side effect (41_config_registers R170). -/
def execRdUcsra (s : State) : Result := whenLive s (.next (s.reply s.ucsraValue))

/-- The write of `v` to UCSRA: three refusals in order, else bit 6 = 1 clears TXC; RXC and UDRE are read-only
(41_config_registers R171). -/
def State.writeUcsra (s : State) (v : Byte) : State :=
  let info := Info.word (encode (.wrUcsra v))
  if writesErrorFlag v then s.refuse .errorFlagWrite info
  else if v.getLsbD 1 then s.refuse .doubleSpeed info
  else if v.getLsbD 0 then s.refuse .multiProcessor info
  else { s with txc := if v.getLsbD 6 then false else s.txc }.done

/-- `WR UCSRA, v` (41_config_registers R171). -/
def execWrUcsra (v : Byte) (s : State) : Result := whenLive s (.next (s.writeUcsra v))

/-- `RD UCSRB`: no side effect (41_config_registers R179). -/
def execRdUcsrb (s : State) : Result := whenLive s (.next (s.reply s.ucsrbValue))

/-- The write of `v` to UCSRB: four refusals in order, else RXEN, TXEN and TXB8; RXB8 is read-only (41_config_registers R180
to R184). -/
def State.writeUcsrb (s : State) (v : Byte) : State :=
  let info := Info.word (encode (.wrUcsrb v))
  if interruptEnables v ≠ 0 then s.refuse .interruptEnable info
  else if v.getLsbD 2 then s.refuse .unsupportedFrame info
  else if s.txen && !v.getLsbD 3 && s.txBusy then s.refuse .txDisableBusy info
  else if s.rxen && !v.getLsbD 4 && s.rxc then s.refuse .rxDisableNonEmpty info
  else { s with rxen := v.getLsbD 4, txen := v.getLsbD 3, txb8 := v.getLsbD 0 }.done

/-- `WR UCSRB, v` (41_config_registers R180). -/
def execWrUcsrb (v : Byte) (s : State) : Result := whenLive s (.next (s.writeUcsrb v))

/-- `RD UCSRC`: no side effect (41_config_registers R185). -/
def execRdUcsrc (s : State) : Result := whenLive s (.next (s.reply s.ucsrc))

/-- The write of `v` to UCSRC: 0x06 is the one admitted value (41_config_registers R186). -/
def State.writeUcsrc (s : State) (v : Byte) : State :=
  if v ≠ 0x06 then s.refuse .unsupportedFrame (.word (encode (.wrUcsrc v)))
  else { s with ucsrc := 0x06 }.done

/-- `WR UCSRC, v` (41_config_registers R186). -/
def execWrUcsrc (v : Byte) (s : State) : Result := whenLive s (.next (s.writeUcsrc v))

/-- `RD UBRRL`: no side effect (41_config_registers R191). -/
def execRdUbrrl (s : State) : Result := whenLive s (.next (s.reply s.ubrrl))

/-- The write of `v` to UBRRL: refused while the transmitter is busy (41_config_registers R192, R195). -/
def State.writeUbrrl (s : State) (v : Byte) : State :=
  if s.txBusy then s.refuse .baudChangeBusy (.word (encode (.wrUbrrl v)))
  else { s with ubrrl := v }.done

/-- `WR UBRRL, v` (41_config_registers R192). -/
def execWrUbrrl (v : Byte) (s : State) : Result := whenLive s (.next (s.writeUbrrl v))

/-- `RD UBRRH`: no side effect (41_config_registers R193). -/
def execRdUbrrh (s : State) : Result := whenLive s (.next (s.reply s.ubrrhValue))

/-- The write of `v` to UBRRH: the reserved bits first, then the busy transmitter (41_config_registers R194, R195). -/
def State.writeUbrrh (s : State) (v : Byte) : State :=
  let info := Info.word (encode (.wrUbrrh v))
  if ubrrhReserved v ≠ 0 then s.refuse .reservedBits info
  else if s.txBusy then s.refuse .baudChangeBusy info
  else { s with ubrrh := ubrrhField v }.done

/-- `WR UBRRH, v` (41_config_registers R194). -/
def execWrUbrrh (v : Byte) (s : State) : Result := whenLive s (.next (s.writeUbrrh v))

end Sys2Proof.Machine
end

