-- ==== Sys2Proof/Machine/Receive.lean ====
section
/-!
DEFINITION. The receive path: the host's read of UDR and the line's step (43_receive R240 to R252).
-/

namespace Sys2Proof.Machine

/-- The read of UDR: the head of the receive buffer leaves it and DOR is cleared; with an empty buffer a free byte is returned
and no register changes (43_receive R240, R241; log 6). -/
def State.readUdr (s : State) : State :=
  match s.rxFifo with
  | [] => s.drew.reply s.drawnByte
  | e :: rest => { s with rxFifo := rest, dor := false }.reply e.data

/-- `RD UDR` (43_receive R240). -/
def execRdUdr (s : State) : Result := whenLive s (.next s.readUdr)

/-- `RX_FRAME(b, stopOk)`: lost without a trace when the receiver is disabled, lost with DOR set when the buffer is full, else
appended with its frame-error bit (43_receive R250 to R252). -/
def State.rxFrame (s : State) (b : Byte) (stopOk : Bool) : State :=
  if !s.rxen then s
  else if s.rxFifo.length = Config.rxDepth then { s with dor := true }
  else { s with rxFifo := s.rxFifo ++ [{ data := b, fe := !stopOk }] }

end Sys2Proof.Machine
end

