-- ==== Sys2Proof/Machine/Transmit.lean ====
section
/-!
DEFINITION. The transmit path: the host's write of UDR and the transmitter's steps (42_transmit R210 to R222).
-/

namespace Sys2Proof.Machine

/-- The write of `v` to UDR: two faults in order, else the data buffer holds `v` (42_transmit R210 to R212). -/
def State.writeUdr (s : State) (v : Byte) : State :=
  let info := Info.word (encode (.wrUdr v))
  if !s.txen then s.raiseFault .txDisabled info
  else if s.txBuf ≠ none then s.raiseFault .txOverrun info
  else { s with txBuf := some v }.done

/-- `WR UDR, v` (42_transmit R210). -/
def execWrUdr (v : Byte) (s : State) : Result := whenLive s (.next (s.writeUdr v))

/-- `emit(b)`: append to the wire record (00_scope R10). -/
def State.emit (s : State) (b : Byte) : State := { s with txWire := s.txWire ++ [b] }

/-- `TX_LOAD`: the byte moves from the data buffer into an idle shift register; where it is not enabled nothing changes
(42_transmit R220; log 5). -/
def State.txLoad (s : State) : State :=
  match s.txen, s.txShift, s.txBuf with
  | true, none, some b => { s with txShift := some b, txBuf := none }
  | _, _, _ => s

/-- `TX_SHIFT`: a whole frame goes out on the wire, and TXC is set when the buffer is empty; where it is not enabled nothing
changes (42_transmit R221, R222; log 5). -/
def State.txShiftOut (s : State) : State :=
  match s.txen, s.txShift with
  | true, some b => { s.emit b with txShift := none, txc := if s.txBuf = none then true else s.txc }
  | _, _ => s

end Sys2Proof.Machine
end

