-- ==== Sys2Proof/Machine/Dispatch.lean ====
section
/-!
DEFINITION. The meaning of a bus operation: one arm per constructor of Instr, each one direct call of that operation's meaning.
-/

namespace Sys2Proof.Machine

def exec (i : Instr) (s : State) : Host.Outcome State Fault Refusal :=
  match i with
  | .rdUcsra => Sys2Proof.Machine.execRdUcsra s
  | .wrUcsra v => Sys2Proof.Machine.execWrUcsra v s
  | .rdUcsrb => Sys2Proof.Machine.execRdUcsrb s
  | .wrUcsrb v => Sys2Proof.Machine.execWrUcsrb v s
  | .rdUcsrc => Sys2Proof.Machine.execRdUcsrc s
  | .wrUcsrc v => Sys2Proof.Machine.execWrUcsrc v s
  | .rdUbrrl => Sys2Proof.Machine.execRdUbrrl s
  | .wrUbrrl v => Sys2Proof.Machine.execWrUbrrl v s
  | .rdUbrrh => Sys2Proof.Machine.execRdUbrrh s
  | .wrUbrrh v => Sys2Proof.Machine.execWrUbrrh v s
  | .rdUdr => Sys2Proof.Machine.execRdUdr s
  | .wrUdr v => Sys2Proof.Machine.execWrUdr v s

end Sys2Proof.Machine
end

