-- ==== Sys2Proof/Machine/Divisor.lean ====
section
/-!
DEFINITION. The baud-rate divisor compute unit: combinational, no state (40_baud_divisor R140 to R149).
-/

namespace Sys2Proof.Machine

/-- The outputs of the unit (40_baud_divisor R140). -/
structure DivisorOut where
  div   : ArithWord
  hi    : Byte
  lo    : Byte
  valid : Bool
  deriving DecidableEq, Repr

/-- `num = clk + baud`, exact (40_baud_divisor R141). -/
def divisorNum (baud clk : ArithWord) : Nat := clk.toNat + baud.toNat

/-- `den = baud * 16 - 1`, exact; only evaluated when `baud >= 1` (40_baud_divisor R141). -/
def divisorDen (baud : ArithWord) : Nat := baud.toNat * 16 - 1

/-- `num / den`, truncating (40_baud_divisor R141, R145). -/
def divisorQuotient (baud clk : ArithWord) : Nat := divisorNum baud clk / divisorDen baud

/-- `divisorValid(baud, clk)`: conditions (a) to (d) of 40_baud_divisor R142. -/
def divisorValid (baud clk : ArithWord) : Bool :=
  decide (1 ≤ baud.toNat) && decide (baud.toNat < clk.toNat)
    && decide (divisorNum baud clk ≤ 2 ^ Config.arithWidth - 1) && decide (divisorDen baud ≤ 2 ^ Config.arithWidth - 1)
    && decide (1 ≤ divisorQuotient baud clk) && decide (divisorQuotient baud clk ≤ 2 ^ Config.ubrrWidth - 1)

/-- The `div` output. At `baud = 0` the spec does not evaluate the formula: a free value (40_baud_divisor R141; log 18). -/
def divisorDiv (baud clk : ArithWord) : ArithWord :=
  if baud = 0 then Config.divisorAtZeroBaud clk else BitVec.ofNat 32 (divisorQuotient baud clk)

/-- `baudDivisor(baud, clk)` = (div, div[15:8], div[7:0], valid) (40_baud_divisor R141). -/
def baudDivisor (baud clk : ArithWord) : DivisorOut :=
  { div := divisorDiv baud clk
    hi := (divisorDiv baud clk).extractLsb' 8 8
    lo := (divisorDiv baud clk).extractLsb' 0 8
    valid := divisorValid baud clk }

end Sys2Proof.Machine
end

