-- ==== Sys2Proof/Machine/HostDriver.lean ====
section
/-!
DEFINITION. The host agent's sequences (44_host_driver R270 to R320, 30_encoding R118): what each host operation does next, as
host-local computation followed by at most one access to the block.
-/

namespace Sys2Proof.Machine

/-- What a host operation does next. -/
inductive HostMove where
  /-- It is complete with host-local computation alone; the host goes on with the next operation. -/
  | passed (s : State)
  /-- It issues the request word `w`, and `after` is what the host does then. -/
  | access (w : ReqWord) (after : List HostOp) (s : State)
  /-- It raises a fault or a refusal of its own rule. -/
  | marked (s : State)
  /-- The host is stuck: no step of the host is enabled. -/
  | stuck

/-- `RD <reg> -> <name>` as host operations (30_encoding R117). -/
def readTo (reg : Reg) (name : Nat) : List HostOp := [.request (encode (readOf reg)), .bind name]

/-- `L: RD <reg> -> t; if t[<bit>] = 0 then pc <- L`, then `after` (30_encoding R118). -/
def pollThen (reg : Reg) (bit : Fin 8) (after : List HostOp) (s : State) : HostMove :=
  .access (encode (readOf reg)) (.waitTest reg bit :: after) s

/-- `writeByte(b)`: poll UDRE, then `WR UDR, b` (44_host_driver R272). -/
def putByte (b : Byte) (rest : List HostOp) (s : State) : HostMove :=
  pollThen .ucsra 5 (.request (encode (.wrUdr b)) :: rest) s

/-- `readByte()`: poll RXC, then `RD UDR` (44_host_driver R273). -/
def takeByte (rest : List HostOp) (s : State) : HostMove :=
  pollThen .ucsra 7 (.request (encode .rdUdr) :: rest) s

/-- `writeByte` of each byte in order. -/
def putBytes (bs : List Byte) (rest : List HostOp) (s : State) : HostMove :=
  match bs with
  | [] => .passed s
  | b :: bs' => putByte b (bs'.map .writeByte ++ rest) s

/-- The two divisor writes of `SETBAUD`, the high byte first, then `after`: no test of the pair (30_encoding R118). -/
def setDivisor (baud clk : ArithWord) (after : List HostOp) (s : State) : HostMove :=
  let d := baudDivisor baud clk
  .access (encode (.wrUbrrh d.hi)) (.request (encode (.wrUbrrl d.lo)) :: after) s

/-- `initialize`, and `INIT` by its source name: an invalid pair faults before any write, a valid one is written and the enable and
format writes follow (44_host_driver R271, 40_baud_divisor R144; that `INIT` makes the test too is DEDUCED, log 17). -/
def initSequence (baud clk : ArithWord) (rest : List HostOp) (s : State) : HostMove :=
  if (baudDivisor baud clk).valid then setDivisor baud clk (.enTxRx :: .setFmt :: rest) s
  else .marked (s.raiseFault .baudConfigInvalid (.baudClk baud clk))

/-- `'0' + d` for `0 <= d <= 9` (44_host_driver, its notation). -/
def digit (d : Nat) : Byte := BitVec.ofNat 8 (0x30 + d)

/-- `'0' + n` when `n <= 9`, `'A' + (n - 10)` when `n >= 10` (44_host_driver, its notation). -/
def hexdigit (n : BitVec 4) : Byte :=
  if n.toNat ≤ 9 then BitVec.ofNat 8 (0x30 + n.toNat) else BitVec.ofNat 8 (0x41 + (n.toNat - 10))

/-- The two digits of `writeHex8`, the high nibble first (44_host_driver R276). -/
def hex8 (v : Byte) : List Byte := [hexdigit (v.extractLsb' 4 4), hexdigit (v.extractLsb' 0 4)]

/-- The four digits of `writeHex16` (44_host_driver R277). -/
def hex16 (v : BitVec 16) : List Byte := hex8 (v.extractLsb' 8 8) ++ hex8 (v.extractLsb' 0 8)

/-- The eight digits of `writeHex32` (44_host_driver R278). -/
def hex32 (v : BitVec 32) : List Byte := hex16 (v.extractLsb' 16 16) ++ hex16 (v.extractLsb' 0 16)

/-- `while v >= p: v = v - p; d = d + 1`, as (d, v). The first argument bounds the rounds; `v` rounds are enough for `p >= 1`
(44_host_driver R279). -/
def subtractWhile : Nat → Nat → Nat → Nat → Nat × Nat
  | 0, _, v, d => (d, v)
  | k + 1, p, v, d => if p ≤ v then subtractWhile k p (v - p) (d + 1) else (d, v)

/-- The decimal digits of `v` by repeated subtraction of the powers in `ps`, leading zeros suppressed, the ones digit always
emitted (44_host_driver R279). -/
def decimalFrom (ps : List Nat) (v : Nat) (started : Bool) : List Byte :=
  match ps with
  | [] => [digit v]
  | p :: ps' =>
    let r := subtractWhile v p v 0
    if r.1 ≠ 0 || started then digit r.1 :: decimalFrom ps' r.2 true else decimalFrom ps' r.2 false

/-- The bytes of `writeUnsigned8` (44_host_driver R279). -/
def unsigned8 (v : Byte) : List Byte := decimalFrom [100, 10] v.toNat false

/-- The bytes of `writeUnsigned16` (44_host_driver R280). -/
def unsigned16 (v : BitVec 16) : List Byte := decimalFrom [10000, 1000, 100, 10] v.toNat false

/-- `'-'`. -/
def minusSign : Byte := 0x2D

/-- The bytes of `writeSigned8` for a value other than -128: the sign, then the magnitude as the mode says (44_host_driver
R281, 90_conflicts C1, C3). -/
def signed8 (mode : Config.Signed8Mode) (v : Byte) : List Byte :=
  let m := if v.getLsbD 7 then ~~~(v - 1) else v
  let magnitude := match mode with
    | .rawByte => [m]
    | .decimal => unsigned8 m
  if v.getLsbD 7 then minusSign :: magnitude else magnitude

/-- The bytes of `writeSigned16` for a value other than -32768 (44_host_driver R282, 90_conflicts C1). -/
def signed16 (v : BitVec 16) : List Byte :=
  if v.getLsbD 15 then minusSign :: unsigned16 (~~~(v - 1)) else unsigned16 v

/-- The byte `c` ends a string: 0x00, and with the parameter true every byte of 128 to 255 (44_host_driver R274). -/
def stringStops (stopOnHighBit : Bool) (c : Byte) : Bool := c == 0x00 || (stopOnHighBit && c.getLsbD 7)

/-- The number of bytes before the first 0x00 at `a`, plus `n`; none where the scan meets an address the memory does not admit.
The first argument bounds the rounds. -/
def strlenFrom : Nat → Memory → Nat → Nat → Option Nat
  | 0, _, _, _ => none
  | k + 1, m, a, n =>
    match Memory.read m a with
    | none => none
    | some c => if c = 0x00 then some n else strlenFrom k m (a + 1) (n + 1)

/-- The pre-call string length at `buf` (44_host_driver R318). A scan of admitted addresses is no longer than the memory's list
(log 15). -/
def strlen (m : Memory) (buf : Nat) : Option Nat := strlenFrom (m.length + 1) m buf 0

/-- The carriage return. -/
def carriageReturn : Byte := 0x0D

/-- `MemWrite(buf + i, 1, 0x00)`, the end of `readLine` (44_host_driver R318). -/
def endLine (buf i : Nat) (s : State) : HostMove :=
  match s.storeHost (buf + i) 0x00 with
  | none => .stuck
  | some s' => .passed s'

/-- The test `i < n` of `readLine`'s loop, and what follows it (44_host_driver R318). -/
def lineLoop (buf i n : Nat) (rest : List HostOp) (s : State) : HostMove :=
  if i < n then takeByte (.lineByte buf i n :: rest) s else endLine buf i s

/-- `readLine` after its `readByte` number `i` has returned `b` (44_host_driver R318). -/
def lineTake (buf i n : Nat) (b : Byte) (rest : List HostOp) (s : State) : HostMove :=
  if b = carriageReturn then endLine buf i s
  else
    match s.storeHost (buf + i) b with
    | none => .stuck
    | some s' => lineLoop buf (i + 1) n rest s'

/-- A host access at a data address (20_memory R81, R85): one byte in the window is a bus operation; an access of any other width,
0 among them, that touches the window is refused; one byte elsewhere is an access to host memory; another width elsewhere is none
that host memory admits (DESIGN CHOICE, log 13, log 20). -/
def hostAccess (write : Bool) (addr width : Nat) (v : Byte) (rest : List HostOp) (s : State) : HostMove :=
  if width = 1 then
    match windowOffset addr with
    | some off => .access (Request.toWord ⟨write, off, if write then v else 0⟩) rest s
    | none =>
      if write then
        match s.storeHost addr v with
        | none => .stuck
        | some s' => .passed s'.done
      else
        match Memory.read s.hostMem addr with
        | none => .stuck
        | some b => .passed (s.reply b)
  else if touchesWindow addr width then .marked (s.refuse .wideAccess (.wide addr width))
  else .stuck

/-- What the host operation `op` does next, `rest` being what follows it. -/
def hostMove (p : Config.HostParams) (op : HostOp) (rest : List HostOp) (s : State) : HostMove :=
  match op with
  | .request w => .access w rest s
  | .access write addr width v => hostAccess write addr width v rest s
  | .bind name =>
    match s.result with
    | none => .stuck
    | some b => .passed (s.bindName name b)
  | .putName name =>
    match Memory.read s.names name with
    | none => .stuck
    | some b => putByte b rest s
  | .wait reg bit => pollThen reg bit rest s
  | .waitTest reg bit =>
    match s.result with
    | none => pollThen reg bit rest s
    | some t => if t.getLsbD bit then .passed s else pollThen reg bit rest s
  | .getName name => takeByte (.bind name :: rest) s
  | .setBaud baud clk => setDivisor baud clk rest s
  | .enTxRx => .access (encode (.wrUcsrb 0x18)) rest s
  | .setFmt => .access (encode (.wrUcsrc 0x06)) rest s
  | .initUart baud clk => initSequence baud clk rest s
  | .writeByte b => putByte b rest s
  | .readByte => takeByte rest s
  | .writeString a =>
    match Memory.read s.hostMem a with
    | none => .stuck
    | some c => if stringStops p.stringStopOnHighBit c then .passed s else putByte c (.writeString (a + 1) :: rest) s
  | .writeHexNibble n => putBytes [hexdigit (n.extractLsb' 0 4)] rest s
  | .writeHex8 v => putBytes (hex8 v) rest s
  | .writeHex16 v => putBytes (hex16 v) rest s
  | .writeHex32 v => putBytes (hex32 v) rest s
  | .writeUnsigned8 v => putBytes (unsigned8 v) rest s
  | .writeUnsigned16 v => putBytes (unsigned16 v) rest s
  | .writeSigned8 v =>
    if v = 0x80 then .marked (s.refuse .signedMinValue (.signed8 v)) else putBytes (signed8 p.signed8Mode v) rest s
  | .writeSigned16 v =>
    if v = 0x8000 then .marked (s.refuse .signedMinValue (.signed16 v)) else putBytes (signed16 v) rest s
  | .readLine buf =>
    match strlen s.hostMem buf with
    | none => .stuck
    | some n => lineLoop buf 0 n rest s
  | .lineByte buf i n =>
    match s.result with
    | none => .stuck
    | some b => lineTake buf i n b rest s

end Sys2Proof.Machine
end

