-- ==== Sys2Proof/Machine/Agents.lean ====
section
/-!
DEFINITION. The agents' turns: how a request word is performed, the host's turn, the transmitter's and the line's, and which
agent moves next (00_scope R7, 60_exceptions R337, 42_transmit R223, 44_host_driver R270).
-/

namespace Sys2Proof.Machine

/-- The refusal a reserved word meets (30_encoding R115). -/
def reservedReason : Reserved → RefusalReason
  | .reservedOffset => .reservedOffset
  | .reservedReadData => .reservedReadData

/-- Performing a request word: the decoder's reservations first (60_exceptions R336), then the operation. The host stands behind
the request already, and a mark leaves it there (log 23). -/
def perform (w : ReqWord) (s : State) : Result :=
  match decode w with
  | .op i => exec i s
  | .reserved r => whenLive s (.next (s.refuse (reservedReason r) (.word w)))

/-- The host's turn over what it has to do: host-local computation until one access is issued, or until nothing is left to do
or the host is stuck (44_host_driver R270; 60_exceptions R337; log 14). Where the host then stands is DESIGN CHOICE (log 23): behind
an access issued as a request word, marked or not; at the operation that raised a mark with no request word issued, be it a
sequence's own rule or a `WideAccess` refusal. -/
def runHost (p : Config.HostParams) : List HostOp → State → Result
  | [], s => .next (s.withTasks [])
  | op :: rest, s =>
    match hostMove p op rest s with
    | .passed s' => runHost p rest s'
    | .access w after s' => perform w (s'.withTasks after)
    | .marked s' => .next (s'.withTasks (op :: rest))
    | .stuck => .next (s.withTasks (op :: rest))

/-- One host turn (44_host_driver R270). -/
def hostTurn (s : State) : Result := runHost Config.hostParams s.tasks s

/-- One turn of the agent named: one host access, one transmitter step or one line step, never two (60_exceptions R337). -/
def takeTurn (t : Config.Turn) (s : State) : Result :=
  match t with
  | .host => hostTurn s
  | .txLoad => .next s.txLoad
  | .txShift => .next s.txShiftOut
  | .rxFrame b stopOk => .next (s.rxFrame b stopOk)

/-- The agents that weak fairness obliges, each again and again: the host and the transmitter's two steps (42_transmit R223,
44_host_driver R270). The line is not among them (43_receive R253). -/
def fairTurn (round : Nat) : Config.Turn :=
  if round % 3 = 0 then .host else if round % 3 = 1 then .txLoad else .txShift

/-- The turn to take next and the state with the choice made: the turns already chosen first; then any number of free turns
between each two fair ones, so that every weakly fair order is possible and no other (log 4). -/
def State.pickTurn (s : State) : Config.Turn × State :=
  match s.agenda with
  | t :: ts => (t, { s with agenda := ts })
  | [] =>
    if s.waited < Config.gap s.round then
      (Config.freeTurn s.draws, { s with waited := s.waited + 1, draws := s.draws + 1 })
    else (fairTurn s.round, { s with waited := 0, round := s.round + 1 })

end Sys2Proof.Machine
end

