-- ==== Sys2Proof/Machine/Step.lean ====
section
/-!
DEFINITION. One step of the machine (60_exceptions R333, R337), and how the host's check places a request word.
-/

namespace Sys2Proof.Machine

/-- One step: in a marked state no agent has one (60_exceptions R333); else the agent whose turn it is takes it. -/
def step (s : State) : Host.Outcome State Fault Refusal :=
  whenLive s (takeTurn s.pickTurn.1 s.pickTurn.2)

/-- `s` with the request word `w` the next thing the host does and the host's turn next, so that `step` performs it. A number
with a bit above the request's twelve is no request, and nothing is placed (log 19). -/
def State.withFetchWord (s : State) (_nbits w : Nat) : State :=
  if w < 4096 then
    { s with tasks := .request (BitVec.ofNat 12 w) :: s.tasks, agenda := .host :: s.agenda }
  else s

end Sys2Proof.Machine
end

