-- ==== Sys2Proof/Machine/Assembler.lean ====
section
/-!
DEFINITION. The assembler text of a bus operation, `RD <reg>` and `WR <reg>, <imm8>` (30_encoding R117). Text is a list of
characters; one space stands after the mnemonic and one after the comma (log 22).
-/

namespace Sys2Proof.Machine

/-- Text, character by character. -/
abbrev Text := List Char

/-- The name of a register (30_encoding R117). -/
def regText : Reg → Text
  | .ucsra => ['U', 'C', 'S', 'R', 'A']
  | .ucsrb => ['U', 'C', 'S', 'R', 'B']
  | .ucsrc => ['U', 'C', 'S', 'R', 'C']
  | .ubrrl => ['U', 'B', 'R', 'R', 'L']
  | .ubrrh => ['U', 'B', 'R', 'R', 'H']
  | .udr => ['U', 'D', 'R']

/-- The register a text names. -/
def parseReg (t : Text) : Option Reg :=
  [Reg.ucsra, .ucsrb, .ucsrc, .ubrrl, .ubrrh, .udr].find? fun r => decide (regText r = t)

/-- The character of the digit `d`, the digit ten being `letterTen` (44_host_driver, its notation `hexdigit`). -/
def digitChar (letterTen : Char) (d : Nat) : Char :=
  Char.ofNat (if d ≤ 9 then '0'.toNat + d else letterTen.toNat + (d - 10))

/-- The digit a character stands for, letters of either case (log 22): the one whose character it is. -/
def digitValue (c : Char) : Option Nat :=
  (List.range 16).find? fun d => decide (c ∈ [digitChar 'A' d, digitChar 'a' d])

/-- The number a text of digits writes in the given base, `acc` standing before it. -/
def parseDigits (base acc : Nat) : Text → Option Nat
  | [] => some acc
  | c :: cs =>
    match digitValue c with
    | none => none
    | some d => if d < base then parseDigits base (acc * base + d) cs else none

/-- A number with at least one digit. -/
def parseNumber (base : Nat) (t : Text) : Option Nat := if t = [] then none else parseDigits base 0 t

/-- A number of 0 to 255 as a byte (30_encoding R117); of a character literal, the number is the character's code point, which
above 127 is no ASCII code (DESIGN CHOICE, log 22). -/
def asByte (n : Nat) : Option Byte := if n < 256 then some (BitVec.ofNat 8 n) else none

/-- `<imm8>`: a character literal (`'\r'` is 0x0D, 00_scope R9), hexadecimal after 0x, binary after 0b, else decimal
(30_encoding R117). A literal of a character of code point 128 to 255, to which R9 gives no ASCII code, is its Unicode code point;
one of a higher code point is no immediate (DESIGN CHOICE, log 22). -/
def parseImm (t : Text) : Option Byte :=
  match t with
  | ['\'', '\\', 'r', '\''] => some 0x0D
  | ['\'', c, '\''] => asByte c.toNat
  | '0' :: 'x' :: ds => (parseNumber 16 ds).bind asByte
  | '0' :: 'b' :: ds => (parseNumber 2 ds).bind asByte
  | ds => (parseNumber 10 ds).bind asByte

/-- The operands of a write, `<reg>, <imm8>`, the register's text so far first. -/
def parseWrite (regSoFar : Text) : Text → Option Instr
  | [] => none
  | c :: cs =>
    if c = ',' then
      if cs.head? = some ' ' then (parseReg regSoFar).bind fun r => (parseImm cs.tail).map (writeOf r) else none
    else parseWrite (regSoFar ++ [c]) cs

/-- The operation a line of assembler text writes (30_encoding R117). -/
def parseInstr (t : Text) : Option Instr :=
  match t with
  | 'R' :: 'D' :: ' ' :: r => (parseReg r).map readOf
  | 'W' :: 'R' :: ' ' :: ops => parseWrite [] ops
  | _ => none

/-- A line of assembler text as a request word. -/
def assemble (t : Text) : Option ReqWord := (parseInstr t).map encode

/-- The upper-case hexadecimal digit of a nibble. -/
def nibbleChar (n : BitVec 4) : Char := digitChar 'A' n.toNat

/-- A byte as 0x and two digits. -/
def byteText (v : Byte) : Text := ['0', 'x', nibbleChar (v.extractLsb' 4 4), nibbleChar (v.extractLsb' 0 4)]

/-- The text of a read. -/
def readText (r : Reg) : Text := ['R', 'D', ' '] ++ regText r

/-- The text of a write. -/
def writeText (r : Reg) (v : Byte) : Text := ['W', 'R', ' '] ++ regText r ++ [',', ' '] ++ byteText v

/-- The assembler text of an operation, its data byte in hexadecimal (30_encoding R117). -/
def instrText : Instr → Text
  | .rdUcsra => readText .ucsra
  | .wrUcsra v => writeText .ucsra v
  | .rdUcsrb => readText .ucsrb
  | .wrUcsrb v => writeText .ucsrb v
  | .rdUcsrc => readText .ucsrc
  | .wrUcsrc v => writeText .ucsrc v
  | .rdUbrrl => readText .ubrrl
  | .wrUbrrl v => writeText .ubrrl v
  | .rdUbrrh => readText .ubrrh
  | .wrUbrrh v => writeText .ubrrh v
  | .rdUdr => readText .udr
  | .wrUdr v => writeText .udr v

end Sys2Proof.Machine
end

