-- ==== Sys2Proof/Safety.lean ====
section
/-!
DEFINITION. What counts as a safe state, in the terms the statements use: the invariants of 10_state R51, a launch state (70
R362), the host's memories in order, the polling discipline of 70 R370, and what two states have in common.
-/

namespace Sys2Proof.Machine

/-- The invariants of 10_state R51, (a) to (d). -/
structure State.Inv (s : State) : Prop where
  fifoBound : s.rxFifo.length ≤ Config.rxDepth
  rxOffEmpty : s.rxen = false → s.rxFifo = []
  txOffIdle : s.txen = false → s.txBuf = none ∧ s.txShift = none
  frameFormat : s.ucsrc = 0x06 ∧ s.ucsz2 = false ∧ s.u2x = false ∧ s.mpcm = false
  noInterrupts : s.rxcie = false ∧ s.txcie = false ∧ s.udrie = false

/-- A launch state: the invariants hold and neither mark is set (70_reset_and_hazards R362). -/
def State.cleanEntry (s : State) : Prop := s.Inv ∧ s.live

/-- The host's memories are in canonical form and host memory lies outside the window (44_host_driver, its notation; log 11). -/
structure State.MemOk (s : State) : Prop where
  hostMemSorted : Memory.wf s.hostMem
  namesSorted : Memory.wf s.names
  outsideWindow : ∀ c ∈ s.hostMem, windowOffset c.1 = none

/-- The operation is the position inside a busy-wait. -/
def HostOp.isTest : HostOp → Bool
  | .waitTest _ _ => true
  | _ => false

/-- The host stands inside a busy-wait only at the head of what it does; where that is the wait for UDRE and the byte last read
shows it, the data buffer is empty (70_reset_and_hazards R370). -/
structure State.PollInv (s : State) : Prop where
  testsAtHead : ∀ op ∈ s.tasks.tail, op.isTest = false
  udreSeen : ∀ ops t, s.tasks = .waitTest .ucsra 5 :: ops → s.result = some t → t.getLsbD 5 = true → s.txBuf = none

/-- Every byte the transmit path has taken in, in order: on the wire, in the shift register, in the data buffer. -/
def State.accepted (s : State) : List Byte := s.txWire ++ s.txShift.toList ++ s.txBuf.toList

/-- The same control and format registers: UCSRB, UCSRC, U2X, MPCM. -/
def SameControl (s t : State) : Prop :=
  t.rxcie = s.rxcie ∧ t.txcie = s.txcie ∧ t.udrie = s.udrie ∧ t.rxen = s.rxen ∧ t.txen = s.txen ∧ t.ucsz2 = s.ucsz2 ∧
    t.txb8 = s.txb8 ∧ t.ucsrc = s.ucsrc ∧ t.u2x = s.u2x ∧ t.mpcm = s.mpcm

/-- The same divisor register. -/
def SameDivisor (s t : State) : Prop := t.ubrrh = s.ubrrh ∧ t.ubrrl = s.ubrrl

/-- The same transmit path, without TXC. -/
def SameTransmit (s t : State) : Prop := t.txBuf = s.txBuf ∧ t.txShift = s.txShift ∧ t.txWire = s.txWire

/-- The same marks. -/
def SameMarks (s t : State) : Prop := t.fault = s.fault ∧ t.refused = s.refused

/-- Every byte of host memory and every host-local name reads as before. -/
def SameMemory (s t : State) : Prop :=
  (∀ a, Memory.read t.hostMem a = Memory.read s.hostMem a) ∧ ∀ n, Memory.read t.names n = Memory.read s.names n

/-- The same place in the host's sequence and in the order of turns. -/
def SameOrder (s t : State) : Prop :=
  t.tasks = s.tasks ∧ t.agenda = s.agenda ∧ t.waited = s.waited ∧ t.round = s.round

/-- The whole block S but its marks is the same (60_exceptions R331, R332, R339). -/
def SameBlock (s t : State) : Prop :=
  SameControl s t ∧ SameDivisor s t ∧ SameTransmit s t ∧ t.rxFifo = s.rxFifo ∧ t.txc = s.txc ∧ t.dor = s.dor

/-- The access was marked and nothing else changed (60_exceptions R331, R332). -/
def MarkedOnly (s t : State) : Prop :=
  (∃ r info, t = s.raiseFault r info) ∨ ∃ r info, t = s.refuse r info

end Sys2Proof.Machine
end

