-- ==== Sys2Proof/Certificates/Slice0/Obligations.lean ====
section
/-!
DEFINITION. The statements about the machine, each taken from the numbered rules of spec/ (OBLIGATIONS.json says which).
-/

open Sys2Proof Sys2Proof.Machine

/-! ### Encoding -/

/-- Every row of the opcode map, its pattern and its match and mask: a read is its match word, a write its match word with the
data byte in bits 7:0, and the words that decode to a row's operations are those that agree with its match word under its mask
(30_encoding R113). -/
def Obligations.EncodeIsOpcodeMap : Prop :=
  (encode .rdUcsra = 0x000 ∧ encode .rdUcsrb = 0x100 ∧ encode .rdUcsrc = 0x200 ∧ encode .rdUbrrl = 0x400 ∧
    encode .rdUbrrh = 0x500 ∧ encode .rdUdr = 0x600) ∧
  (∀ v : Byte,
    encode (.wrUcsra v) = 0x800 ||| v.setWidth 12 ∧ encode (.wrUcsrb v) = 0x900 ||| v.setWidth 12 ∧
    encode (.wrUcsrc v) = 0xA00 ||| v.setWidth 12 ∧ encode (.wrUbrrl v) = 0xC00 ||| v.setWidth 12 ∧
    encode (.wrUbrrh v) = 0xD00 ||| v.setWidth 12 ∧ encode (.wrUdr v) = 0xE00 ||| v.setWidth 12) ∧
  ∀ w : ReqWord,
    (decode w = .op .rdUcsra ↔ w &&& 0xFFF = 0x000) ∧ ((∃ v, decode w = .op (.wrUcsra v)) ↔ w &&& 0xF00 = 0x800) ∧
    (decode w = .op .rdUcsrb ↔ w &&& 0xFFF = 0x100) ∧ ((∃ v, decode w = .op (.wrUcsrb v)) ↔ w &&& 0xF00 = 0x900) ∧
    (decode w = .op .rdUcsrc ↔ w &&& 0xFFF = 0x200) ∧ ((∃ v, decode w = .op (.wrUcsrc v)) ↔ w &&& 0xF00 = 0xA00) ∧
    (decode w = .op .rdUbrrl ↔ w &&& 0xFFF = 0x400) ∧ ((∃ v, decode w = .op (.wrUbrrl v)) ↔ w &&& 0xF00 = 0xC00) ∧
    (decode w = .op .rdUbrrh ↔ w &&& 0xFFF = 0x500) ∧ ((∃ v, decode w = .op (.wrUbrrh v)) ↔ w &&& 0xF00 = 0xD00) ∧
    (decode w = .op .rdUdr ↔ w &&& 0xFFF = 0x600) ∧ ((∃ v, decode w = .op (.wrUdr v)) ↔ w &&& 0xF00 = 0xE00)

/-- The decoder gives back every operation, with every data byte, from its request word. -/
def Obligations.DecodeOfEncodeIsOperation : Prop := ∀ i : Instr, decode (encode i) = .op i

/-- A word that decodes to an operation is that operation's request word: no bit is dropped, and no two words name one
operation. -/
def Obligations.DecodedWordIsItsEncoding : Prop := ∀ (w : ReqWord) (i : Instr), decode w = .op i → encode i = w

/-- The decoder on every word: the offset's reservation first, then a read's data field; every other word is the operation whose
request has the word's own W, A and D (30_encoding R114). -/
def Obligations.DecoderReservations : Prop :=
  ∀ w : ReqWord,
    if w.extractLsb' 8 3 = 3 ∨ w.extractLsb' 8 3 = 7 then decode w = .reserved .reservedOffset
    else if w.getLsbD 11 = false ∧ w.extractLsb' 0 8 ≠ 0 then decode w = .reserved .reservedReadData
    else ∃ i, decode w = .op i ∧ i.request = ⟨w.getLsbD 11, w.extractLsb' 8 3, w.extractLsb' 0 8⟩

/-- Words of the spec's decoder vectors, one for each register and direction (95_test_vectors V-E1 to V-E14, V-E17). -/
def Obligations.DecoderVectors : Prop :=
  decode 0x000 = .op .rdUcsra ∧ decode 0x100 = .op .rdUcsrb ∧ decode 0x200 = .op .rdUcsrc ∧ decode 0x400 = .op .rdUbrrl ∧
  decode 0x500 = .op .rdUbrrh ∧ decode 0x600 = .op .rdUdr ∧ decode 0x800 = .op (.wrUcsra 0x00) ∧
  decode 0x918 = .op (.wrUcsrb 0x18) ∧ decode 0xA06 = .op (.wrUcsrc 0x06) ∧ decode 0xC68 = .op (.wrUbrrl 0x68) ∧
  decode 0xD00 = .op (.wrUbrrh 0x00) ∧ decode 0xE41 = .op (.wrUdr 0x41) ∧ decode 0x0FF = .reserved .reservedReadData ∧
  decode 0x3FF = .reserved .reservedOffset

/-- The assembler text of an operation assembles to that operation (30_encoding R117; the spacing is the model's, log 22). -/
def Obligations.AssemblerRoundTrip : Prop := ∀ i : Instr, parseInstr (instrText i) = some i

/-! ### Reset, steps, marks -/

/-- What reset leaves of the block's record S, and what the five readable registers then read (10_state R50, 70_reset_and_hazards
R360). -/
def Obligations.ResetLeavesBlock : Prop :=
  let s := State.reset
  (s.rxcie = false ∧ s.txcie = false ∧ s.udrie = false ∧ s.rxen = false ∧ s.txen = false ∧ s.ucsz2 = false ∧ s.txb8 = false) ∧
  (s.ucsrc = 0x06 ∧ s.txc = false ∧ s.dor = false ∧ s.u2x = false ∧ s.mpcm = false ∧ s.ubrrh = 0 ∧ s.ubrrl = 0) ∧
  (s.txBuf = none ∧ s.txShift = none ∧ s.rxFifo = [] ∧ s.txWire = [] ∧ s.fault = none ∧ s.refused = none) ∧
  s.ucsraValue = 0x20 ∧ s.ucsrbValue = 0x00 ∧ s.ubrrhValue = 0x00

/-- When it is the host's turn and the request word it issues next decodes to `i`, the step is `i`'s meaning in the state
with the turn and the request taken off. The two lists are the model's (log 4, log 10). -/
def Obligations.StepRunsDecodedInstruction : Prop :=
  ∀ (s : State) (w : ReqWord) (i : Instr) (ops : List HostOp) (ts : List Config.Turn),
    s.agenda = .host :: ts → s.tasks = .request w :: ops → decode w = .op i →
      step s = exec i { s with agenda := ts, tasks := ops }

/-- Performing a reserved request word sets the refusal mark of its reservation, records the word, and changes nothing else: no
value is returned; every other word is performed as its operation (41_config_registers R190). -/
def Obligations.ReservedRequestIsRefused : Prop :=
  ∀ (s : State) (w : ReqWord), s.live →
    if w.extractLsb' 8 3 = 3 ∨ w.extractLsb' 8 3 = 7 then
      perform w s = .next { s with refused := some (.reservedOffset, .word w) }
    else if w.getLsbD 11 = false ∧ w.extractLsb' 0 8 ≠ 0 then
      perform w s = .next { s with refused := some (.reservedReadData, .word w) }
    else ∃ i, decode w = .op i ∧ perform w s = exec i s

/-- In a state with a mark set no agent has a step: neither `step` nor any operation answers a next state, whatever the turn
(60_exceptions R333). -/
def Obligations.MarkedStateHasNoStep : Prop :=
  ∀ s : State, s.fault ≠ none ∨ s.refused ≠ none →
    (∀ t, step s ≠ .next t) ∧ ∀ (i : Instr) (t : State), exec i s ≠ .next t

/-- A step that sets a mark leaves the whole block but the mark as it was (60_exceptions R331, R332, R339). -/
def Obligations.MarkingStepChangesNothingElse : Prop :=
  ∀ s t : State, step s = .next t → ¬ t.live → SameBlock s t

/-! ### The register accesses -/

/-- `RD UCSRA` returns the eight status bits in their places and changes nothing (41_config_registers R170, 10_state R34). -/
def Obligations.RdUcsraReturnsStatus : Prop :=
  encode .rdUcsra = 0x000 ∧ ∀ s : State, s.live →
    ∃ v : Byte, exec .rdUcsra s = .next { s with result := some v } ∧
      v.getLsbD 7 = decide (s.rxFifo ≠ []) ∧ v.getLsbD 6 = s.txc ∧ v.getLsbD 5 = decide (s.txBuf = none) ∧
      v.getLsbD 4 = (s.rxFifo.head?.map (·.fe)).getD false ∧ v.getLsbD 3 = s.dor ∧ v.getLsbD 2 = false ∧
      v.getLsbD 1 = s.u2x ∧ v.getLsbD 0 = s.mpcm

/-- `WR UCSRA, v`: with bits 4:0 zero it completes and clears TXC exactly when bit 6 is 1; a 1 in bit 4, 3 or 2, else in bit
1, else in bit 0 is refused by its name (41_config_registers R171). -/
def Obligations.WrUcsraClearsTxcOrRefuses : Prop :=
  ∀ (s : State) (v : Byte), s.live →
    encode (.wrUcsra v) = 0x800 ||| v.setWidth 12 ∧
    (v.extractLsb' 0 5 = 0 →
      exec (.wrUcsra v) s = .next { s with txc := if v.getLsbD 6 then false else s.txc, result := none }) ∧
    (v.getLsbD 4 = true ∨ v.getLsbD 3 = true ∨ v.getLsbD 2 = true →
      exec (.wrUcsra v) s = .next { s with refused := some (.errorFlagWrite, .word (0x800 ||| v.setWidth 12)) }) ∧
    (v.extractLsb' 2 3 = 0 → v.getLsbD 1 = true →
      exec (.wrUcsra v) s = .next { s with refused := some (.doubleSpeed, .word (0x800 ||| v.setWidth 12)) }) ∧
    (v.extractLsb' 1 4 = 0 → v.getLsbD 0 = true →
      exec (.wrUcsra v) s = .next { s with refused := some (.multiProcessor, .word (0x800 ||| v.setWidth 12)) })

/-- `RD UCSRB` returns the control bits in their places, bit 1 zero, and changes nothing (41_config_registers R179). -/
def Obligations.RdUcsrbReturnsControl : Prop :=
  encode .rdUcsrb = 0x100 ∧ ∀ s : State, s.live →
    ∃ v : Byte, exec .rdUcsrb s = .next { s with result := some v } ∧
      v.getLsbD 7 = s.rxcie ∧ v.getLsbD 6 = s.txcie ∧ v.getLsbD 5 = s.udrie ∧ v.getLsbD 4 = s.rxen ∧ v.getLsbD 3 = s.txen ∧
      v.getLsbD 2 = s.ucsz2 ∧ v.getLsbD 1 = false ∧ v.getLsbD 0 = s.txb8

/-- `WR UCSRB, v` completes and writes RXEN, TXEN and TXB8 when `v` has no interrupt enable and no UCSZ2 and disables neither
a busy transmitter nor a receiver that holds data; the four refusals in their order otherwise (41_config_registers R180 to
R184). -/
def Obligations.WrUcsrbWritesEnablesOrRefuses : Prop :=
  ∀ (s : State) (v : Byte), s.live →
    let keepsTx := v.getLsbD 3 = true ∨ s.txen = false ∨ (s.txBuf = none ∧ s.txShift = none)
    let keepsRx := v.getLsbD 4 = true ∨ s.rxen = false ∨ s.rxFifo = []
    encode (.wrUcsrb v) = 0x900 ||| v.setWidth 12 ∧
    (v.extractLsb' 5 3 = 0 → v.getLsbD 2 = false → keepsTx → keepsRx →
      exec (.wrUcsrb v) s =
        .next { s with rxen := v.getLsbD 4, txen := v.getLsbD 3, txb8 := v.getLsbD 0, result := none }) ∧
    (v.extractLsb' 5 3 ≠ 0 →
      exec (.wrUcsrb v) s = .next { s with refused := some (.interruptEnable, .word (0x900 ||| v.setWidth 12)) }) ∧
    (v.extractLsb' 5 3 = 0 → v.getLsbD 2 = true →
      exec (.wrUcsrb v) s = .next { s with refused := some (.unsupportedFrame, .word (0x900 ||| v.setWidth 12)) }) ∧
    (v.extractLsb' 5 3 = 0 → v.getLsbD 2 = false → ¬ keepsTx →
      exec (.wrUcsrb v) s = .next { s with refused := some (.txDisableBusy, .word (0x900 ||| v.setWidth 12)) }) ∧
    (v.extractLsb' 5 3 = 0 → v.getLsbD 2 = false → keepsTx → ¬ keepsRx →
      exec (.wrUcsrb v) s = .next { s with refused := some (.rxDisableNonEmpty, .word (0x900 ||| v.setWidth 12)) })

/-- `RD UCSRC` and `RD UBRRL` return the stored byte and change nothing (41_config_registers R185, R191). -/
def Obligations.RdUcsrcAndUbrrlReturnStored : Prop :=
  encode .rdUcsrc = 0x200 ∧ encode .rdUbrrl = 0x400 ∧ ∀ s : State, s.live →
    exec .rdUcsrc s = .next { s with result := some s.ucsrc } ∧ exec .rdUbrrl s = .next { s with result := some s.ubrrl }

/-- `WR UCSRC, v`: 0x06 is admitted, every other value is refused (41_config_registers R186). -/
def Obligations.WrUcsrcAdmitsOnly8N1 : Prop :=
  ∀ (s : State) (v : Byte), s.live →
    encode (.wrUcsrc v) = 0xA00 ||| v.setWidth 12 ∧
    exec (.wrUcsrc 0x06) s = .next { s with ucsrc := 0x06, result := none } ∧
    (v ≠ 0x06 →
      exec (.wrUcsrc v) s = .next { s with refused := some (.unsupportedFrame, .word (0xA00 ||| v.setWidth 12)) })

/-- `RD UBRRH` returns the divisor bits 11:8 in bits 3:0 and zeros in bits 7:4 (41_config_registers R193). -/
def Obligations.RdUbrrhReturnsHighDivisor : Prop :=
  encode .rdUbrrh = 0x500 ∧ ∀ s : State, s.live →
    ∃ v : Byte, exec .rdUbrrh s = .next { s with result := some v } ∧ v.toNat = s.ubrrh.toNat

/-- `WR UBRRL, v`: refused while the transmitter is busy, else every value is written (41_config_registers R192). -/
def Obligations.WrUbrrlWritesLowDivisor : Prop :=
  ∀ (s : State) (v : Byte), s.live →
    encode (.wrUbrrl v) = 0xC00 ||| v.setWidth 12 ∧
    (s.txBuf = none → s.txShift = none → exec (.wrUbrrl v) s = .next { s with ubrrl := v, result := none }) ∧
    (s.txBuf ≠ none ∨ s.txShift ≠ none →
      exec (.wrUbrrl v) s = .next { s with refused := some (.baudChangeBusy, .word (0xC00 ||| v.setWidth 12)) })

/-- `WR UBRRH, v`: the reserved bits first, then the busy transmitter, else bits 3:0 are written (41_config_registers R194). -/
def Obligations.WrUbrrhWritesHighDivisor : Prop :=
  ∀ (s : State) (v : Byte), s.live →
    encode (.wrUbrrh v) = 0xD00 ||| v.setWidth 12 ∧
    (v.extractLsb' 4 4 = 0 → s.txBuf = none → s.txShift = none →
      exec (.wrUbrrh v) s = .next { s with ubrrh := v.extractLsb' 0 4, result := none }) ∧
    (v.extractLsb' 4 4 ≠ 0 →
      exec (.wrUbrrh v) s = .next { s with refused := some (.reservedBits, .word (0xD00 ||| v.setWidth 12)) }) ∧
    (v.extractLsb' 4 4 = 0 → s.txBuf ≠ none ∨ s.txShift ≠ none →
      exec (.wrUbrrh v) s = .next { s with refused := some (.baudChangeBusy, .word (0xD00 ||| v.setWidth 12)) })

/-- `WR UDR, v` with the transmitter enabled and the data buffer empty puts `v` into the buffer, busy shift register or not;
the two faults in their order otherwise (42_transmit R210 to R212). -/
def Obligations.WrUdrFillsBufferOrFaults : Prop :=
  ∀ (s : State) (v : Byte), s.live →
    encode (.wrUdr v) = 0xE00 ||| v.setWidth 12 ∧
    (s.txen = true → s.txBuf = none → exec (.wrUdr v) s = .next { s with txBuf := some v, result := none }) ∧
    (s.txen = false → exec (.wrUdr v) s = .next { s with fault := some (.txDisabled, .word (0xE00 ||| v.setWidth 12)) }) ∧
    (s.txen = true → s.txBuf ≠ none →
      exec (.wrUdr v) s = .next { s with fault := some (.txOverrun, .word (0xE00 ||| v.setWidth 12)) })

/-- `RD UDR` with a received byte returns the oldest, removes it and clears DOR; with an empty buffer it returns a byte and
changes no register (43_receive R240). -/
def Obligations.RdUdrPopsOldest : Prop :=
  encode .rdUdr = 0x600 ∧ ∀ s : State, s.live →
    (∀ e rest, s.rxFifo = e :: rest →
      exec .rdUdr s = .next { s with rxFifo := rest, dor := false, result := some e.data }) ∧
    (s.rxFifo = [] → ∃ t b, exec .rdUdr s = .next t ∧ t.result = some b ∧ SameBlock s t ∧ SameMarks s t)

/-- `RD UDR` with an empty buffer returns a free draw and changes no register: only the model's own counter of draws moves
(43_receive R241; the counter is log 6). -/
def Obligations.RdUdrEmptyDrawsFreely : Prop :=
  ∀ s : State, s.live → s.rxFifo = [] →
    exec .rdUdr s = .next { s with result := some (Config.freeByte s.draws), draws := s.draws + 1 }

/-! ### Frames -/

/-- What the five register reads leave unchanged: everything but the byte returned. -/
def Obligations.RegisterReadFrame : Prop :=
  ∀ (i : Instr) (s t : State), i = .rdUcsra ∨ i = .rdUcsrb ∨ i = .rdUcsrc ∨ i = .rdUbrrl ∨ i = .rdUbrrh →
    exec i s = .next t →
      SameBlock s t ∧ SameMarks s t ∧ SameMemory s t ∧ SameOrder s t ∧ t.draws = s.draws

/-- What `RD UDR` leaves unchanged: all but the receive buffer, DOR, the byte returned and the counter of draws. -/
def Obligations.RdUdrFrame : Prop :=
  ∀ s t : State, exec .rdUdr s = .next t →
    SameControl s t ∧ SameDivisor s t ∧ SameTransmit s t ∧ t.txc = s.txc ∧ SameMarks s t ∧ SameMemory s t ∧ SameOrder s t ∧
      (t.rxFifo = s.rxFifo ∧ t.dor = s.dor ∨ t.rxFifo = s.rxFifo.tail ∧ t.draws = s.draws)

/-- What the control writes leave unchanged: `WR UCSRA` all but TXC, `WR UCSRB` all but RXEN, TXEN and TXB8, `WR UCSRC` all but
UCSRC; beside that, only the refusal mark and what is returned. -/
def Obligations.ControlWriteFrame : Prop :=
  ∀ (i : Instr) (s t : State) (v : Byte), i = .wrUcsra v ∨ i = .wrUcsrb v ∨ i = .wrUcsrc v → exec i s = .next t →
    SameDivisor s t ∧ SameTransmit s t ∧ t.rxFifo = s.rxFifo ∧ t.dor = s.dor ∧ t.fault = s.fault ∧ SameMemory s t ∧
    SameOrder s t ∧ t.draws = s.draws ∧
    t.rxcie = s.rxcie ∧ t.txcie = s.txcie ∧ t.udrie = s.udrie ∧ t.ucsz2 = s.ucsz2 ∧ t.u2x = s.u2x ∧ t.mpcm = s.mpcm ∧
    (i ≠ .wrUcsra v → t.txc = s.txc) ∧ (i ≠ .wrUcsrc v → t.ucsrc = s.ucsrc) ∧
    (i ≠ .wrUcsrb v → t.rxen = s.rxen ∧ t.txen = s.txen ∧ t.txb8 = s.txb8)

/-- What the divisor writes and `WR UDR` leave unchanged: `WR UBRRL` all but UBRRL, `WR UBRRH` all but UBRRH, `WR UDR` all but
the transmit data buffer; beside that, only the marks and what is returned. -/
def Obligations.DataWriteFrame : Prop :=
  ∀ (i : Instr) (s t : State) (v : Byte), i = .wrUbrrl v ∨ i = .wrUbrrh v ∨ i = .wrUdr v → exec i s = .next t →
    SameControl s t ∧ t.txc = s.txc ∧ t.dor = s.dor ∧ t.rxFifo = s.rxFifo ∧ t.txShift = s.txShift ∧ t.txWire = s.txWire ∧
    SameMemory s t ∧ SameOrder s t ∧ t.draws = s.draws ∧
    (i ≠ .wrUbrrl v → t.ubrrl = s.ubrrl) ∧ (i ≠ .wrUbrrh v → t.ubrrh = s.ubrrh) ∧
    (i ≠ .wrUdr v → t.txBuf = s.txBuf ∧ t.fault = s.fault) ∧ (i = .wrUdr v → t.refused = s.refused)

/-! ### The transmitter and the line -/

/-- `TX_LOAD` where it is enabled, and where it is not (42_transmit R220; that a turn without effect changes nothing is log 5). -/
def Obligations.TxLoadMovesByte : Prop :=
  ∀ (s : State) (ts : List Config.Turn), s.live → s.agenda = .txLoad :: ts →
    (∀ b, s.txen = true → s.txShift = none → s.txBuf = some b →
      step s = .next { s with agenda := ts, txShift := some b, txBuf := none }) ∧
    (s.txen = false ∨ s.txShift ≠ none ∨ s.txBuf = none → step s = .next { s with agenda := ts })

/-- `TX_SHIFT` where it is enabled, and where it is not; TXC is set exactly when the buffer is empty (42_transmit R221, R222;
log 5). -/
def Obligations.TxShiftSendsByte : Prop :=
  ∀ (s : State) (ts : List Config.Turn), s.live → s.agenda = .txShift :: ts →
    (∀ b, s.txen = true → s.txShift = some b →
      step s = .next { s with
        agenda := ts, txWire := s.txWire ++ [b], txShift := none, txc := s.txc || decide (s.txBuf = none) }) ∧
    (s.txen = false ∨ s.txShift = none → step s = .next { s with agenda := ts })

/-- `RX_FRAME(b, stopOk)` with the receiver disabled, with a full buffer, and with room (43_receive R250 to R252). The list
of turns is the model's (log 4). -/
def Obligations.RxFrameDelivered : Prop :=
  ∀ (s : State) (b : Byte) (stopOk : Bool) (ts : List Config.Turn), s.live → s.agenda = .rxFrame b stopOk :: ts →
    if s.rxen = false then step s = .next { s with agenda := ts }
    else if s.rxFifo.length = Config.rxDepth then step s = .next { s with agenda := ts, dor := true }
    else step s = .next { s with agenda := ts, rxFifo := s.rxFifo ++ [{ data := b, fe := !stopOk }] }

/-! ### Invariants and rules of the whole machine -/

/-- Every step keeps the invariants of 10_state R51. The spec marks them as derived there. -/
def Obligations.StepKeepsInvariants : Prop := ∀ s t : State, s.Inv → step s = .next t → t.Inv

/-- Every step keeps the host's memories in canonical form and host memory outside the window. That only listed addresses
are admitted is the model's (log 11). -/
def Obligations.StepKeepsMemories : Prop := ∀ s t : State, s.MemOk → step s = .next t → t.MemOk

/-- Every step keeps the polling discipline: what the host has read of UDRE still holds when it acts on it. It is the
invariant behind 70_reset_and_hazards R370, which the spec marks as derived. -/
def Obligations.StepKeepsPolling : Prop := ∀ s t : State, s.PollInv → step s = .next t → t.PollInv

/-- The reset state meets the three invariants and is a launch state (10_state R51, 70_reset_and_hazards R362). The host's
and the model's own fields at reset are the model's (log 3, 4, 6, 10, 11, 16). -/
def Obligations.ResetMeetsInvariants : Prop :=
  State.reset.cleanEntry ∧ State.reset.MemOk ∧ State.reset.PollInv

/-- A host turn that stands at the test of UDRE before a `WR UDR` never faults with an overrun (70_reset_and_hazards R370,
44_host_driver R272). R370 is marked as derived; the list of turns is the model's (log 4). -/
def Obligations.PolledWriteNeverOverruns : Prop :=
  ∀ (s t : State) (b : Byte) (ops : List HostOp) (ts : List Config.Turn), s.PollInv → s.agenda = .host :: ts →
    s.tasks = .waitTest .ucsra 5 :: .request (encode (.wrUdr b)) :: ops → step s = .next t →
      ∀ info, t.fault ≠ some (.txOverrun, info)

/-- Every byte taken in goes out once and in order: a step takes in at most one byte, at the end, and the wire record only
grows (20_memory R90). The spec marks R90 as derived. -/
def Obligations.WireOrderIsWriteOrder : Prop :=
  ∀ s t : State, step s = .next t →
    (t.accepted = s.accepted ∨ ∃ v, t.accepted = s.accepted ++ [v] ∧ t.txBuf = some v ∧ s.txBuf = none ∧ s.txen = true) ∧
    s.txWire <+: t.txWire

/-- The receive buffer is a queue: a step leaves it, takes its head and returns that byte, or appends one entry while there
is room (20_memory R91). The spec marks R91 as derived. -/
def Obligations.ReceiveOrderIsDeliveryOrder : Prop :=
  ∀ s t : State, step s = .next t →
    t.rxFifo = s.rxFifo ∨
    (∃ e, s.rxFifo = e :: t.rxFifo ∧ t.result = some e.data ∧ t.dor = false) ∨
    ∃ e, t.rxFifo = s.rxFifo ++ [e] ∧ s.rxen = true ∧ s.rxFifo.length ≠ Config.rxDepth

/-- TXC becomes 1 only on the transmitter's shift turn, when a frame goes out with nothing behind it, and 0 only on a host turn
that leaves the transmit path as it is and reads nothing (42_transmit R222, 10_state R40; that a write returns nothing is log 3). -/
def Obligations.TxcChangesOnlyAsNamed : Prop :=
  ∀ s t : State, step s = .next t → t.txc ≠ s.txc →
    (t.txc = true → s.pickTurn.1 = .txShift ∧ ∃ b, s.txen = true ∧ s.txShift = some b ∧ s.txBuf = none ∧ t.txWire = s.txWire ++ [b] ∧
      t.txShift = none ∧ t.txBuf = none) ∧
    (t.txc = false → s.pickTurn.1 = .host ∧ SameTransmit s t ∧ t.result = none)

/-- DOR becomes 1 only on the line's turn, by a frame lost to a full buffer, and 0 only on a host turn, by a read that removes an
entry (10_state R43). -/
def Obligations.DorChangesOnlyAsNamed : Prop :=
  ∀ s t : State, step s = .next t → t.dor ≠ s.dor →
    (t.dor = true → (∃ b stopOk, s.pickTurn.1 = .rxFrame b stopOk) ∧ s.rxen = true ∧ s.rxFifo.length = Config.rxDepth ∧
      t.rxFifo = s.rxFifo) ∧
    (t.dor = false → s.pickTurn.1 = .host ∧ ∃ e, s.rxFifo = e :: t.rxFifo ∧ t.result = some e.data)

/-- No access shows which byte stands in the data buffer, in the shift register or on the wire record: two states that differ
only there answer every operation with the same value returned and the same marks (10_state R45, R46). -/
def Obligations.TransmitBytesAreHidden : Prop :=
  ∀ (i : Instr) (s t : State) (buf shift : Option Byte) (wire : List Byte),
    buf.isSome = s.txBuf.isSome → shift.isSome = s.txShift.isSome → exec i s = .next t →
      ∃ t', exec i { s with txBuf := buf, txShift := shift, txWire := wire } = .next t' ∧ t'.result = t.result ∧
        t'.fault = t.fault ∧ t'.refused = t.refused ∧ t'.txBuf.isSome = t.txBuf.isSome

/-- A byte in the data buffer of an enabled transmitter leaves it after finitely many steps, or a mark ends the run; all bytes taken
in stay taken in and in order, so a byte that leaves the buffer has gone on (42_transmit R223). It rests on the model's weakly
fair order of turns (log 4). -/
def Obligations.BufferedByteIsLoadedOrMarked : Prop :=
  ∀ (s : State) (b : Byte), s.live → s.txen = true → s.txBuf = some b →
    ∃ n t, Host.Core.run Sys2Proof.core n s = .next t ∧ (t.txBuf = none ∨ ¬ t.live) ∧ s.accepted <+: t.accepted

/-- `writeByte(b)` with the transmitter enabled completes after finitely many steps: its byte has been taken in behind all
bytes before it, and the host goes on (44_host_driver R272). It rests on the model's weakly fair order of turns (log 4). -/
def Obligations.WriteByteCompletes : Prop :=
  ∀ (s : State) (b : Byte) (ops : List HostOp), s.live → s.txen = true → s.tasks = .writeByte b :: ops →
    ∃ n t, Host.Core.run Sys2Proof.core n s = .next t ∧ t.live ∧ t.tasks = ops ∧ t.accepted = s.accepted ++ [b]

/-! ### The divisor compute unit -/

/-- For `baud >= 1` the unit's quotient is the formula in exact arithmetic, truncated, its byte outputs are bits 15:8 and 7:0 of
it, and its last output is the validity (40_baud_divisor R141, R145). -/
def Obligations.DivisorIsTheFormula : Prop :=
  ∀ baud clk : ArithWord, 1 ≤ baud.toNat →
    (baudDivisor baud clk).div.toNat = (clk.toNat + baud.toNat) / (baud.toNat * 16 - 1) ∧
    (baudDivisor baud clk).hi = (baudDivisor baud clk).div.extractLsb' 8 8 ∧
    (baudDivisor baud clk).lo = (baudDivisor baud clk).div.extractLsb' 0 8 ∧
    (baudDivisor baud clk).valid = divisorValid baud clk

/-- A pair is valid exactly under conditions (a) to (d); the second half of (c) is implied by the rest; under (a) to (c) the
32-bit evaluation of the formula equals the exact one (40_baud_divisor R142). -/
def Obligations.DivisorValidity : Prop :=
  ∀ baud clk : ArithWord,
    let quotient := (clk.toNat + baud.toNat) / (baud.toNat * 16 - 1)
    (divisorValid baud clk = true ↔
      1 ≤ baud.toNat ∧ baud.toNat < clk.toNat ∧ clk.toNat + baud.toNat ≤ 2 ^ 32 - 1 ∧ baud.toNat * 16 - 1 ≤ 2 ^ 32 - 1 ∧
        1 ≤ quotient ∧ quotient ≤ 4095) ∧
    (clk.toNat + baud.toNat ≤ 2 ^ 32 - 1 → 1 ≤ quotient → baud.toNat * 16 - 1 ≤ 2 ^ 32 - 1) ∧
    (1 ≤ baud.toNat → baud.toNat < clk.toNat → clk.toNat + baud.toNat ≤ 2 ^ 32 - 1 → baud.toNat * 16 - 1 ≤ 2 ^ 32 - 1 →
      ((clk + baud) / (baud * 16 - 1)).toNat = quotient)

/-- For a valid pair the high byte is a legal UBRRH value and the two bytes together are the divisor (40_baud_divisor R143).
The spec marks R143 as derived. -/
def Obligations.ValidDivisorSplits : Prop :=
  ∀ baud clk : ArithWord, (baudDivisor baud clk).valid = true →
    (baudDivisor baud clk).hi.extractLsb' 4 4 = 0 ∧
    ((baudDivisor baud clk).hi ++ (baudDivisor baud clk).lo).toNat = (baudDivisor baud clk).div.toNat

/-- The validity boundaries of the table of 40_baud_divisor R149, with the divisors at and beside them. The spec marks the
table as derived. -/
def Obligations.DivisorBoundaries : Prop :=
  let d := fun baud clk : Nat => baudDivisor (BitVec.ofNat 32 baud) (BitVec.ofNat 32 clk)
  let row := fun clk lo lodiv lo'div hi hi'div : Nat =>
    ((d lo clk).valid = true ∧ (d lo clk).div.toNat = lodiv) ∧
    ((d (lo - 1) clk).valid = false ∧ (d (lo - 1) clk).div.toNat = lo'div) ∧
    ((d hi clk).valid = true ∧ (d hi clk).div.toNat = 1) ∧
    ((d (hi + 1) clk).valid = false ∧ (d (hi + 1) clk).div.toNat = hi'div)
  row 16000000 245 4082 4099 1066666 0 ∧ row 8000000 123 4067 4100 533333 0 ∧
  row 1000000 16 3921 4184 66666 0 ∧ row 20000000 306 4085 4099 1333333 0

/-! ### The host sequences -/

/-- `initialize` with a valid pair and the transmitter idle: four host turns write UBRRH, UBRRL, UCSRB = 0x18 and UCSRC =
0x06 and leave the divisor, both enables and the format (44_host_driver R271). The list of turns is the model's (log 4). -/
def Obligations.InitUartConfigures : Prop :=
  ∀ (s : State) (baud clk : ArithWord) (ops : List HostOp) (ts : List Config.Turn),
    s.live → s.txBusy = false → divisorValid baud clk = true → s.tasks = .initUart baud clk :: ops →
    s.agenda = .host :: .host :: .host :: .host :: ts →
      ∃ t, Host.Core.run Sys2Proof.core 4 s = .next t ∧
        t = { s with
          ubrrh := t.ubrrh, ubrrl := t.ubrrl, rxen := true, txen := true, txb8 := false, ucsrc := 0x06, result := none,
          tasks := ops, agenda := ts } ∧
        t.ubrr.toNat = (clk.toNat + baud.toNat) / (baud.toNat * 16 - 1)

/-- `SETBAUD` issues the two divisor writes, bits 15:8 of the unit's quotient to UBRRH and then bits 7:0 to UBRRL, for every pair,
valid or not (30_encoding R118). -/
def Obligations.SetBaudWritesDivisor : Prop :=
  ∀ (p : Config.HostParams) (baud clk : ArithWord) (rest : List HostOp) (s : State),
    let d := (baudDivisor baud clk).div
    hostMove p (.setBaud baud clk) rest s =
      .access (0xD00 ||| (d.extractLsb' 8 8).setWidth 12) (.request (0xC00 ||| (d.extractLsb' 0 8).setWidth 12) :: rest) s

/-- `initialize` with an invalid pair faults with the operands recorded, before any register is written (40_baud_divisor
R144). The list of turns is the model's (log 4). -/
def Obligations.InvalidBaudFaults : Prop :=
  ∀ (s : State) (baud clk : ArithWord) (ops : List HostOp) (ts : List Config.Turn),
    s.live → divisorValid baud clk = false → s.tasks = .initUart baud clk :: ops → s.agenda = .host :: ts →
      step s = .next { s with agenda := ts, fault := some (.baudConfigInvalid, .baudClk baud clk) }

/-- `readByte()` with a received byte: one poll and one read return the oldest unread byte, whatever its frame-error bit
(44_host_driver R273). The list of turns is the model's (log 4). -/
def Obligations.ReadByteReturnsOldest : Prop :=
  ∀ (s : State) (e : RxEntry) (rest : List RxEntry) (ops : List HostOp) (ts : List Config.Turn),
    s.live → s.rxFifo = e :: rest → s.tasks = .readByte :: ops → s.agenda = .host :: .host :: ts →
      Host.Core.run Sys2Proof.core 2 s =
        .next { s with rxFifo := rest, dor := false, result := some e.data, tasks := ops, agenda := ts }

/-- `readByte()` with nothing received keeps polling: a host turn leaves it waiting and the block as it is (44_host_driver
R273, 43_receive R253). The list of turns is the model's (log 4), and so is polling again where nothing has been returned yet
(log 21). -/
def Obligations.ReadByteWaits : Prop :=
  ∀ (s : State) (ops : List HostOp) (ts : List Config.Turn),
    s.live → s.rxFifo = [] → s.agenda = .host :: ts → s.tasks = .waitTest .ucsra 7 :: ops →
      (∀ r, s.result = some r → r.getLsbD 7 = false) →
        step s = .next { s with agenda := ts, result := some s.ucsraValue } ∧ s.ucsraValue.getLsbD 7 = false

/-- An access of any width but one byte that touches the window is refused, with its address and width recorded; a one-byte access
at `UART_BASE + off` issues the request word of that offset; a one-byte access at any other address leaves the block as it is and
issues no request: it is host-local, or the host is stuck (20_memory R81, R85). What touches the window, width 0 among it, and what
is recorded are the model's (log 13), where the host then stands is too (log 23), and so are the access to host memory (log 20) and
the list of turns (log 4). -/
def Obligations.AddressDecodeAndWidth : Prop :=
  ∀ (s : State) (write : Bool) (addr width : Nat) (v : Byte) (ops : List HostOp) (ts : List Config.Turn),
    s.live → s.agenda = .host :: ts → s.tasks = .access write addr width v :: ops →
      (width ≠ 1 → addr ≤ Config.uartBase + 6 → Config.uartBase < addr + max width 1 →
        step s = .next { s with agenda := ts, refused := some (.wideAccess, .wide addr width) }) ∧
      (width = 1 → Config.uartBase ≤ addr → addr ≤ Config.uartBase + 6 →
        step s = perform (Request.toWord ⟨write, BitVec.ofNat 3 (addr - Config.uartBase), if write then v else 0⟩)
          { s with agenda := ts, tasks := ops }) ∧
      (width = 1 → addr < Config.uartBase ∨ Config.uartBase + 6 < addr → ∀ p : Config.HostParams,
        (∃ s', hostMove p (.access write addr width v) ops s = .passed s' ∧ SameBlock s s' ∧ SameMarks s s') ∨
          hostMove p (.access write addr width v) ops s = .stuck)

/-- `writeHex16(v)` sends four upper-case digits from which `v` reads back, the most significant nibble first (44_host_driver
R276, R277). -/
def Obligations.Hex16ReadsBack : Prop :=
  ∀ v : BitVec 16, (hex16 v).length = 4 ∧
    (hex16 v).foldl (fun n c => n * 16 + (if c.toNat < 0x41 then c.toNat - 0x30 else c.toNat - 0x41 + 10)) 0 = v.toNat ∧
    ∀ c ∈ hex16 v, (0x30 ≤ c.toNat ∧ c.toNat ≤ 0x39) ∨ (0x41 ≤ c.toNat ∧ c.toNat ≤ 0x46)

/-- `writeUnsigned16(v)` sends digits from which `v` reads back, with no leading zero but for the single digit "0"
(44_host_driver R279, R280). -/
def Obligations.Unsigned16ReadsBack : Prop :=
  ∀ v : BitVec 16, (unsigned16 v).foldl (fun n c => n * 10 + (c.toNat - 0x30)) 0 = v.toNat ∧
    (∀ c ∈ unsigned16 v, 0x30 ≤ c.toNat ∧ c.toNat ≤ 0x39) ∧
    ((unsigned16 v).head? = some 0x30 → unsigned16 v = [0x30]) ∧ unsigned16 v ≠ []

/-- `writeSigned16(v)` sends "-" and the magnitude for a negative value, the value itself otherwise (44_host_driver R282,
90_conflicts C1). -/
def Obligations.Signed16IsSignAndMagnitude : Prop :=
  ∀ v : BitVec 16, v ≠ 0x8000 →
    (v.toInt < 0 → ∃ m : BitVec 16, signed16 v = 0x2D :: unsigned16 m ∧ (m.toNat : Int) = -v.toInt) ∧
    (0 ≤ v.toInt → signed16 v = unsigned16 v)

/-- `writeSigned8(-128)` and `writeSigned16(-32768)` are refused before any bus operation (44_host_driver R283). The list of
turns is the model's (log 4). -/
def Obligations.MinimumSignedValuesRefused : Prop :=
  ∀ (s : State) (ops : List HostOp) (ts : List Config.Turn), s.live → s.agenda = .host :: ts →
    (s.tasks = .writeSigned8 0x80 :: ops →
      step s = .next { s with agenda := ts, refused := some (.signedMinValue, .signed8 0x80) }) ∧
    (s.tasks = .writeSigned16 0x8000 :: ops →
      step s = .next { s with agenda := ts, refused := some (.signedMinValue, .signed16 0x8000) })

/-- The length `readLine` computes is the number of bytes before the first 0x00, whenever every address up to it is admitted
(44_host_driver R318). That only listed addresses are admitted is the model's (log 11, log 15). -/
def Obligations.LineLengthIsStringLength : Prop :=
  ∀ (m : Memory) (buf n : Nat), strlen m buf = some n ↔
    Memory.read m (buf + n) = some 0 ∧ ∀ j < n, ∃ c, c ≠ 0 ∧ Memory.read m (buf + j) = some c

/-- `readLine` after a byte: a carriage return ends the line with 0x00 in its place; any other byte is stored at its index,
and the line ends with 0x00 behind it when the limit is reached (44_host_driver R318). That only listed addresses are
admitted is the model's (log 11). -/
def Obligations.ReadLineStoresByte : Prop :=
  ∀ (p : Config.HostParams) (s : State) (buf i n : Nat) (b old next : Byte) (rest : List HostOp),
    s.result = some b → Memory.read s.hostMem (buf + i) = some old →
    (b = 0x0D →
      hostMove p (.lineByte buf i n) rest s = .passed { s with hostMem := Memory.write s.hostMem (buf + i) 0 }) ∧
    (b ≠ 0x0D → i + 1 < n → ∃ w after,
      hostMove p (.lineByte buf i n) rest s = .access w after { s with hostMem := Memory.write s.hostMem (buf + i) b } ∧
        w = 0x000 ∧ after = .waitTest .ucsra 7 :: .request 0x600 :: .lineByte buf (i + 1) n :: rest) ∧
    (b ≠ 0x0D → i + 1 = n → Memory.read s.hostMem (buf + n) = some next →
      hostMove p (.lineByte buf i n) rest s =
        .passed { s with hostMem := Memory.write (Memory.write s.hostMem (buf + i) b) (buf + n) 0 })

/-- `writeString` at a byte: 0x00 ends it, and so does a byte of 128 to 255 where the parameter says so; any other byte is
sent by a `writeByte` and the string goes on behind it (44_host_driver R274). That only listed addresses are admitted is the
model's (log 11). -/
def Obligations.WriteStringStopsOrSends : Prop :=
  ∀ (stop : Bool) (mode : Config.Signed8Mode) (s : State) (a : Nat) (c : Byte) (rest : List HostOp),
    Memory.read s.hostMem a = some c →
      if c = 0x00 ∨ (stop = true ∧ 0x80 ≤ c.toNat) then hostMove ⟨stop, mode⟩ (.writeString a) rest s = .passed s
      else hostMove ⟨stop, mode⟩ (.writeString a) rest s =
        hostMove ⟨stop, mode⟩ (.writeByte c) (.writeString (a + 1) :: rest) s

/-- The formatting sequences send their characters one `writeByte` after another, in the order of their lists: the hex nibble,
hex and decimal writers, and the signed writers but at the minimum value (44_host_driver R275 to R282, R320). -/
def Obligations.FormattersAreByteWrites : Prop :=
  ∀ (p : Config.HostParams) (op : HostOp) (c : Byte) (cs : List Byte) (rest : List HostOp) (s : State),
    ((∃ n, op = .writeHexNibble n ∧ [hexdigit (n.extractLsb' 0 4)] = c :: cs) ∨ (∃ v, op = .writeHex8 v ∧ hex8 v = c :: cs) ∨
      (∃ v, op = .writeHex16 v ∧ hex16 v = c :: cs) ∨ (∃ v, op = .writeHex32 v ∧ hex32 v = c :: cs) ∨
      (∃ v, op = .writeUnsigned8 v ∧ unsigned8 v = c :: cs) ∨ (∃ v, op = .writeUnsigned16 v ∧ unsigned16 v = c :: cs) ∨
      (∃ v, op = .writeSigned8 v ∧ v ≠ 0x80 ∧ signed8 p.signed8Mode v = c :: cs) ∨
      ∃ v, op = .writeSigned16 v ∧ v ≠ 0x8000 ∧ signed16 v = c :: cs) →
    hostMove p op rest s = hostMove p (.writeByte c) (cs.map .writeByte ++ rest) s
end

