-- ==== Sys2Proof/Laws/Assembler.lean ====
section
/-!
SUPPORT. The digits of assembler text read back.
-/

namespace Sys2Proof.Machine

/-- The character of a nibble is the digit of its value. -/
@[simp] theorem digitValue_nibbleChar (n : BitVec 4) : digitValue (nibbleChar n) = some n.toNat := by
  revert n
  decide

/-- A byte's hexadecimal text reads back. -/
@[simp] theorem parseImm_byteText (v : Byte) : parseImm (byteText v) = some v := by
  have h1 : (v.extractLsb' 4 4).toNat < 16 := (v.extractLsb' 4 4).isLt
  have h0 : (v.extractLsb' 0 4).toNat < 16 := (v.extractLsb' 0 4).isLt
  have hn : (0 * 16 + (v.extractLsb' 4 4).toNat) * 16 + (v.extractLsb' 0 4).toNat = v.toNat := by
    have hv : v.toNat < 256 := v.isLt
    simp only [BitVec.extractLsb'_toNat, Nat.shiftRight_eq_div_pow]
    omega
  have hp : parseImm (byteText v) =
      (parseDigits 16 0 [nibbleChar (v.extractLsb' 4 4), nibbleChar (v.extractLsb' 0 4)]).bind asByte := rfl
  simp only [hp, parseDigits, digitValue_nibbleChar, h1, h0, if_true, hn, Option.bind_some, asByte, v.isLt,
    BitVec.ofNat_toNat, BitVec.setWidth_eq]

end Sys2Proof.Machine
end

