-- ==== Sys2Proof/Laws/Decode.lean ====
section
/-!
SUPPORT. Small lemmas of the fields of a request word.
-/

namespace Sys2Proof

/-- The bits of a word made from fields: 7:0 are D, 10:8 are A, 11 is W (30_encoding R110). -/
theorem Request.getLsbD_toWord (r : Request) (i : Nat) :
    r.toWord.getLsbD i =
      if i < 8 then r.data.getLsbD i else if i - 8 < 3 then r.offset.getLsbD (i - 8)
      else (BitVec.ofBool r.write).getLsbD (i - 8 - 3) := by
  refine (BitVec.getLsbD_append (x := BitVec.ofBool r.write ++ r.offset) (y := r.data) (i := i)).trans ?_
  rw [BitVec.getLsbD_append]

/-- The fields of a word made from fields are those fields. -/
@[simp] theorem Request.ofWord_toWord (r : Request) : Request.ofWord r.toWord = r := by
  obtain ⟨w, o, d⟩ := r
  simp only [Request.ofWord, Request.mk.injEq]
  refine ⟨?_, BitVec.eq_of_getLsbD_eq ?_, BitVec.eq_of_getLsbD_eq ?_⟩
  · rw [Request.getLsbD_toWord]
    cases w <;> simp
  · intro i hi
    simp [Request.getLsbD_toWord, hi]
  · intro i hi
    simp [Request.getLsbD_toWord, hi]

/-- The word made from a word's fields is that word. -/
@[simp] theorem Request.toWord_ofWord (w : ReqWord) : (Request.ofWord w).toWord = w := by
  refine BitVec.eq_of_getLsbD_eq fun i hi => ?_
  rw [Request.getLsbD_toWord]
  split
  · rename_i h; simp [Request.ofWord, h]
  · split
    · rename_i h h'
      simp only [Request.ofWord, BitVec.getLsbD_extractLsb', h', decide_true, Bool.true_and]
      congr 1; omega
    · rename_i h h'
      obtain rfl : i = 11 := by omega
      simp [Request.ofWord]

/-- `register_of` inverts the offset of a register. -/
@[simp] theorem regOf_offset (r : Reg) : regOf r.offset = some r := by cases r <;> rfl

/-- A read is a read of its register's offset with data 0. -/
theorem readOf_request (r : Reg) : (readOf r).request = ⟨false, r.offset, 0⟩ := by cases r <;> rfl

/-- A write is a write of its register's offset with its byte. -/
theorem writeOf_request (r : Reg) (v : Byte) : (writeOf r v).request = ⟨true, r.offset, v⟩ := by cases r <;> rfl

end Sys2Proof
end

