-- ==== Sys2Proof/Laws/State.lean ====
section
/-!
SUPPORT. One lemma per field and update of the state: what each named update leaves in each field.
-/

namespace Sys2Proof.Machine

variable (s : State)

/-! ### `State.raiseFault` -/

@[simp] theorem State.raiseFault_rxcie (r : FaultReason) (info : Info) : (s.raiseFault r info).rxcie = s.rxcie := rfl
@[simp] theorem State.raiseFault_txcie (r : FaultReason) (info : Info) : (s.raiseFault r info).txcie = s.txcie := rfl
@[simp] theorem State.raiseFault_udrie (r : FaultReason) (info : Info) : (s.raiseFault r info).udrie = s.udrie := rfl
@[simp] theorem State.raiseFault_rxen (r : FaultReason) (info : Info) : (s.raiseFault r info).rxen = s.rxen := rfl
@[simp] theorem State.raiseFault_txen (r : FaultReason) (info : Info) : (s.raiseFault r info).txen = s.txen := rfl
@[simp] theorem State.raiseFault_ucsz2 (r : FaultReason) (info : Info) : (s.raiseFault r info).ucsz2 = s.ucsz2 := rfl
@[simp] theorem State.raiseFault_txb8 (r : FaultReason) (info : Info) : (s.raiseFault r info).txb8 = s.txb8 := rfl
@[simp] theorem State.raiseFault_ucsrc (r : FaultReason) (info : Info) : (s.raiseFault r info).ucsrc = s.ucsrc := rfl
@[simp] theorem State.raiseFault_txc (r : FaultReason) (info : Info) : (s.raiseFault r info).txc = s.txc := rfl
@[simp] theorem State.raiseFault_dor (r : FaultReason) (info : Info) : (s.raiseFault r info).dor = s.dor := rfl
@[simp] theorem State.raiseFault_u2x (r : FaultReason) (info : Info) : (s.raiseFault r info).u2x = s.u2x := rfl
@[simp] theorem State.raiseFault_mpcm (r : FaultReason) (info : Info) : (s.raiseFault r info).mpcm = s.mpcm := rfl
@[simp] theorem State.raiseFault_ubrrh (r : FaultReason) (info : Info) : (s.raiseFault r info).ubrrh = s.ubrrh := rfl
@[simp] theorem State.raiseFault_ubrrl (r : FaultReason) (info : Info) : (s.raiseFault r info).ubrrl = s.ubrrl := rfl
@[simp] theorem State.raiseFault_txBuf (r : FaultReason) (info : Info) : (s.raiseFault r info).txBuf = s.txBuf := rfl
@[simp] theorem State.raiseFault_txShift (r : FaultReason) (info : Info) : (s.raiseFault r info).txShift = s.txShift := rfl
@[simp] theorem State.raiseFault_rxFifo (r : FaultReason) (info : Info) : (s.raiseFault r info).rxFifo = s.rxFifo := rfl
@[simp] theorem State.raiseFault_txWire (r : FaultReason) (info : Info) : (s.raiseFault r info).txWire = s.txWire := rfl
@[simp] theorem State.raiseFault_fault (r : FaultReason) (info : Info) : (s.raiseFault r info).fault = some (r, info) := rfl
@[simp] theorem State.raiseFault_refused (r : FaultReason) (info : Info) : (s.raiseFault r info).refused = s.refused := rfl
@[simp] theorem State.raiseFault_tasks (r : FaultReason) (info : Info) : (s.raiseFault r info).tasks = s.tasks := rfl
@[simp] theorem State.raiseFault_result (r : FaultReason) (info : Info) : (s.raiseFault r info).result = s.result := rfl
@[simp] theorem State.raiseFault_hostMem (r : FaultReason) (info : Info) : (s.raiseFault r info).hostMem = s.hostMem := rfl
@[simp] theorem State.raiseFault_names (r : FaultReason) (info : Info) : (s.raiseFault r info).names = s.names := rfl
@[simp] theorem State.raiseFault_agenda (r : FaultReason) (info : Info) : (s.raiseFault r info).agenda = s.agenda := rfl
@[simp] theorem State.raiseFault_waited (r : FaultReason) (info : Info) : (s.raiseFault r info).waited = s.waited := rfl
@[simp] theorem State.raiseFault_round (r : FaultReason) (info : Info) : (s.raiseFault r info).round = s.round := rfl
@[simp] theorem State.raiseFault_draws (r : FaultReason) (info : Info) : (s.raiseFault r info).draws = s.draws := rfl

/-! ### `State.refuse` -/

@[simp] theorem State.refuse_rxcie (r : RefusalReason) (info : Info) : (s.refuse r info).rxcie = s.rxcie := rfl
@[simp] theorem State.refuse_txcie (r : RefusalReason) (info : Info) : (s.refuse r info).txcie = s.txcie := rfl
@[simp] theorem State.refuse_udrie (r : RefusalReason) (info : Info) : (s.refuse r info).udrie = s.udrie := rfl
@[simp] theorem State.refuse_rxen (r : RefusalReason) (info : Info) : (s.refuse r info).rxen = s.rxen := rfl
@[simp] theorem State.refuse_txen (r : RefusalReason) (info : Info) : (s.refuse r info).txen = s.txen := rfl
@[simp] theorem State.refuse_ucsz2 (r : RefusalReason) (info : Info) : (s.refuse r info).ucsz2 = s.ucsz2 := rfl
@[simp] theorem State.refuse_txb8 (r : RefusalReason) (info : Info) : (s.refuse r info).txb8 = s.txb8 := rfl
@[simp] theorem State.refuse_ucsrc (r : RefusalReason) (info : Info) : (s.refuse r info).ucsrc = s.ucsrc := rfl
@[simp] theorem State.refuse_txc (r : RefusalReason) (info : Info) : (s.refuse r info).txc = s.txc := rfl
@[simp] theorem State.refuse_dor (r : RefusalReason) (info : Info) : (s.refuse r info).dor = s.dor := rfl
@[simp] theorem State.refuse_u2x (r : RefusalReason) (info : Info) : (s.refuse r info).u2x = s.u2x := rfl
@[simp] theorem State.refuse_mpcm (r : RefusalReason) (info : Info) : (s.refuse r info).mpcm = s.mpcm := rfl
@[simp] theorem State.refuse_ubrrh (r : RefusalReason) (info : Info) : (s.refuse r info).ubrrh = s.ubrrh := rfl
@[simp] theorem State.refuse_ubrrl (r : RefusalReason) (info : Info) : (s.refuse r info).ubrrl = s.ubrrl := rfl
@[simp] theorem State.refuse_txBuf (r : RefusalReason) (info : Info) : (s.refuse r info).txBuf = s.txBuf := rfl
@[simp] theorem State.refuse_txShift (r : RefusalReason) (info : Info) : (s.refuse r info).txShift = s.txShift := rfl
@[simp] theorem State.refuse_rxFifo (r : RefusalReason) (info : Info) : (s.refuse r info).rxFifo = s.rxFifo := rfl
@[simp] theorem State.refuse_txWire (r : RefusalReason) (info : Info) : (s.refuse r info).txWire = s.txWire := rfl
@[simp] theorem State.refuse_fault (r : RefusalReason) (info : Info) : (s.refuse r info).fault = s.fault := rfl
@[simp] theorem State.refuse_refused (r : RefusalReason) (info : Info) : (s.refuse r info).refused = some (r, info) := rfl
@[simp] theorem State.refuse_tasks (r : RefusalReason) (info : Info) : (s.refuse r info).tasks = s.tasks := rfl
@[simp] theorem State.refuse_result (r : RefusalReason) (info : Info) : (s.refuse r info).result = s.result := rfl
@[simp] theorem State.refuse_hostMem (r : RefusalReason) (info : Info) : (s.refuse r info).hostMem = s.hostMem := rfl
@[simp] theorem State.refuse_names (r : RefusalReason) (info : Info) : (s.refuse r info).names = s.names := rfl
@[simp] theorem State.refuse_agenda (r : RefusalReason) (info : Info) : (s.refuse r info).agenda = s.agenda := rfl
@[simp] theorem State.refuse_waited (r : RefusalReason) (info : Info) : (s.refuse r info).waited = s.waited := rfl
@[simp] theorem State.refuse_round (r : RefusalReason) (info : Info) : (s.refuse r info).round = s.round := rfl
@[simp] theorem State.refuse_draws (r : RefusalReason) (info : Info) : (s.refuse r info).draws = s.draws := rfl

/-! ### `State.reply` -/

@[simp] theorem State.reply_rxcie (v : Byte) : (s.reply v).rxcie = s.rxcie := rfl
@[simp] theorem State.reply_txcie (v : Byte) : (s.reply v).txcie = s.txcie := rfl
@[simp] theorem State.reply_udrie (v : Byte) : (s.reply v).udrie = s.udrie := rfl
@[simp] theorem State.reply_rxen (v : Byte) : (s.reply v).rxen = s.rxen := rfl
@[simp] theorem State.reply_txen (v : Byte) : (s.reply v).txen = s.txen := rfl
@[simp] theorem State.reply_ucsz2 (v : Byte) : (s.reply v).ucsz2 = s.ucsz2 := rfl
@[simp] theorem State.reply_txb8 (v : Byte) : (s.reply v).txb8 = s.txb8 := rfl
@[simp] theorem State.reply_ucsrc (v : Byte) : (s.reply v).ucsrc = s.ucsrc := rfl
@[simp] theorem State.reply_txc (v : Byte) : (s.reply v).txc = s.txc := rfl
@[simp] theorem State.reply_dor (v : Byte) : (s.reply v).dor = s.dor := rfl
@[simp] theorem State.reply_u2x (v : Byte) : (s.reply v).u2x = s.u2x := rfl
@[simp] theorem State.reply_mpcm (v : Byte) : (s.reply v).mpcm = s.mpcm := rfl
@[simp] theorem State.reply_ubrrh (v : Byte) : (s.reply v).ubrrh = s.ubrrh := rfl
@[simp] theorem State.reply_ubrrl (v : Byte) : (s.reply v).ubrrl = s.ubrrl := rfl
@[simp] theorem State.reply_txBuf (v : Byte) : (s.reply v).txBuf = s.txBuf := rfl
@[simp] theorem State.reply_txShift (v : Byte) : (s.reply v).txShift = s.txShift := rfl
@[simp] theorem State.reply_rxFifo (v : Byte) : (s.reply v).rxFifo = s.rxFifo := rfl
@[simp] theorem State.reply_txWire (v : Byte) : (s.reply v).txWire = s.txWire := rfl
@[simp] theorem State.reply_fault (v : Byte) : (s.reply v).fault = s.fault := rfl
@[simp] theorem State.reply_refused (v : Byte) : (s.reply v).refused = s.refused := rfl
@[simp] theorem State.reply_tasks (v : Byte) : (s.reply v).tasks = s.tasks := rfl
@[simp] theorem State.reply_result (v : Byte) : (s.reply v).result = some v := rfl
@[simp] theorem State.reply_hostMem (v : Byte) : (s.reply v).hostMem = s.hostMem := rfl
@[simp] theorem State.reply_names (v : Byte) : (s.reply v).names = s.names := rfl
@[simp] theorem State.reply_agenda (v : Byte) : (s.reply v).agenda = s.agenda := rfl
@[simp] theorem State.reply_waited (v : Byte) : (s.reply v).waited = s.waited := rfl
@[simp] theorem State.reply_round (v : Byte) : (s.reply v).round = s.round := rfl
@[simp] theorem State.reply_draws (v : Byte) : (s.reply v).draws = s.draws := rfl

/-! ### `State.done` -/

@[simp] theorem State.done_rxcie : s.done.rxcie = s.rxcie := rfl
@[simp] theorem State.done_txcie : s.done.txcie = s.txcie := rfl
@[simp] theorem State.done_udrie : s.done.udrie = s.udrie := rfl
@[simp] theorem State.done_rxen : s.done.rxen = s.rxen := rfl
@[simp] theorem State.done_txen : s.done.txen = s.txen := rfl
@[simp] theorem State.done_ucsz2 : s.done.ucsz2 = s.ucsz2 := rfl
@[simp] theorem State.done_txb8 : s.done.txb8 = s.txb8 := rfl
@[simp] theorem State.done_ucsrc : s.done.ucsrc = s.ucsrc := rfl
@[simp] theorem State.done_txc : s.done.txc = s.txc := rfl
@[simp] theorem State.done_dor : s.done.dor = s.dor := rfl
@[simp] theorem State.done_u2x : s.done.u2x = s.u2x := rfl
@[simp] theorem State.done_mpcm : s.done.mpcm = s.mpcm := rfl
@[simp] theorem State.done_ubrrh : s.done.ubrrh = s.ubrrh := rfl
@[simp] theorem State.done_ubrrl : s.done.ubrrl = s.ubrrl := rfl
@[simp] theorem State.done_txBuf : s.done.txBuf = s.txBuf := rfl
@[simp] theorem State.done_txShift : s.done.txShift = s.txShift := rfl
@[simp] theorem State.done_rxFifo : s.done.rxFifo = s.rxFifo := rfl
@[simp] theorem State.done_txWire : s.done.txWire = s.txWire := rfl
@[simp] theorem State.done_fault : s.done.fault = s.fault := rfl
@[simp] theorem State.done_refused : s.done.refused = s.refused := rfl
@[simp] theorem State.done_tasks : s.done.tasks = s.tasks := rfl
@[simp] theorem State.done_result : s.done.result = none := rfl
@[simp] theorem State.done_hostMem : s.done.hostMem = s.hostMem := rfl
@[simp] theorem State.done_names : s.done.names = s.names := rfl
@[simp] theorem State.done_agenda : s.done.agenda = s.agenda := rfl
@[simp] theorem State.done_waited : s.done.waited = s.waited := rfl
@[simp] theorem State.done_round : s.done.round = s.round := rfl
@[simp] theorem State.done_draws : s.done.draws = s.draws := rfl

/-! ### `State.drew` -/

@[simp] theorem State.drew_rxcie : s.drew.rxcie = s.rxcie := rfl
@[simp] theorem State.drew_txcie : s.drew.txcie = s.txcie := rfl
@[simp] theorem State.drew_udrie : s.drew.udrie = s.udrie := rfl
@[simp] theorem State.drew_rxen : s.drew.rxen = s.rxen := rfl
@[simp] theorem State.drew_txen : s.drew.txen = s.txen := rfl
@[simp] theorem State.drew_ucsz2 : s.drew.ucsz2 = s.ucsz2 := rfl
@[simp] theorem State.drew_txb8 : s.drew.txb8 = s.txb8 := rfl
@[simp] theorem State.drew_ucsrc : s.drew.ucsrc = s.ucsrc := rfl
@[simp] theorem State.drew_txc : s.drew.txc = s.txc := rfl
@[simp] theorem State.drew_dor : s.drew.dor = s.dor := rfl
@[simp] theorem State.drew_u2x : s.drew.u2x = s.u2x := rfl
@[simp] theorem State.drew_mpcm : s.drew.mpcm = s.mpcm := rfl
@[simp] theorem State.drew_ubrrh : s.drew.ubrrh = s.ubrrh := rfl
@[simp] theorem State.drew_ubrrl : s.drew.ubrrl = s.ubrrl := rfl
@[simp] theorem State.drew_txBuf : s.drew.txBuf = s.txBuf := rfl
@[simp] theorem State.drew_txShift : s.drew.txShift = s.txShift := rfl
@[simp] theorem State.drew_rxFifo : s.drew.rxFifo = s.rxFifo := rfl
@[simp] theorem State.drew_txWire : s.drew.txWire = s.txWire := rfl
@[simp] theorem State.drew_fault : s.drew.fault = s.fault := rfl
@[simp] theorem State.drew_refused : s.drew.refused = s.refused := rfl
@[simp] theorem State.drew_tasks : s.drew.tasks = s.tasks := rfl
@[simp] theorem State.drew_result : s.drew.result = s.result := rfl
@[simp] theorem State.drew_hostMem : s.drew.hostMem = s.hostMem := rfl
@[simp] theorem State.drew_names : s.drew.names = s.names := rfl
@[simp] theorem State.drew_agenda : s.drew.agenda = s.agenda := rfl
@[simp] theorem State.drew_waited : s.drew.waited = s.waited := rfl
@[simp] theorem State.drew_round : s.drew.round = s.round := rfl
@[simp] theorem State.drew_draws : s.drew.draws = s.draws + 1 := rfl

/-! ### `State.emit` -/

@[simp] theorem State.emit_rxcie (b : Byte) : (s.emit b).rxcie = s.rxcie := rfl
@[simp] theorem State.emit_txcie (b : Byte) : (s.emit b).txcie = s.txcie := rfl
@[simp] theorem State.emit_udrie (b : Byte) : (s.emit b).udrie = s.udrie := rfl
@[simp] theorem State.emit_rxen (b : Byte) : (s.emit b).rxen = s.rxen := rfl
@[simp] theorem State.emit_txen (b : Byte) : (s.emit b).txen = s.txen := rfl
@[simp] theorem State.emit_ucsz2 (b : Byte) : (s.emit b).ucsz2 = s.ucsz2 := rfl
@[simp] theorem State.emit_txb8 (b : Byte) : (s.emit b).txb8 = s.txb8 := rfl
@[simp] theorem State.emit_ucsrc (b : Byte) : (s.emit b).ucsrc = s.ucsrc := rfl
@[simp] theorem State.emit_txc (b : Byte) : (s.emit b).txc = s.txc := rfl
@[simp] theorem State.emit_dor (b : Byte) : (s.emit b).dor = s.dor := rfl
@[simp] theorem State.emit_u2x (b : Byte) : (s.emit b).u2x = s.u2x := rfl
@[simp] theorem State.emit_mpcm (b : Byte) : (s.emit b).mpcm = s.mpcm := rfl
@[simp] theorem State.emit_ubrrh (b : Byte) : (s.emit b).ubrrh = s.ubrrh := rfl
@[simp] theorem State.emit_ubrrl (b : Byte) : (s.emit b).ubrrl = s.ubrrl := rfl
@[simp] theorem State.emit_txBuf (b : Byte) : (s.emit b).txBuf = s.txBuf := rfl
@[simp] theorem State.emit_txShift (b : Byte) : (s.emit b).txShift = s.txShift := rfl
@[simp] theorem State.emit_rxFifo (b : Byte) : (s.emit b).rxFifo = s.rxFifo := rfl
@[simp] theorem State.emit_txWire (b : Byte) : (s.emit b).txWire = s.txWire ++ [b] := rfl
@[simp] theorem State.emit_fault (b : Byte) : (s.emit b).fault = s.fault := rfl
@[simp] theorem State.emit_refused (b : Byte) : (s.emit b).refused = s.refused := rfl
@[simp] theorem State.emit_tasks (b : Byte) : (s.emit b).tasks = s.tasks := rfl
@[simp] theorem State.emit_result (b : Byte) : (s.emit b).result = s.result := rfl
@[simp] theorem State.emit_hostMem (b : Byte) : (s.emit b).hostMem = s.hostMem := rfl
@[simp] theorem State.emit_names (b : Byte) : (s.emit b).names = s.names := rfl
@[simp] theorem State.emit_agenda (b : Byte) : (s.emit b).agenda = s.agenda := rfl
@[simp] theorem State.emit_waited (b : Byte) : (s.emit b).waited = s.waited := rfl
@[simp] theorem State.emit_round (b : Byte) : (s.emit b).round = s.round := rfl
@[simp] theorem State.emit_draws (b : Byte) : (s.emit b).draws = s.draws := rfl

/-! ### `State.bindName` -/

@[simp] theorem State.bindName_rxcie (n : Nat) (v : Byte) : (s.bindName n v).rxcie = s.rxcie := rfl
@[simp] theorem State.bindName_txcie (n : Nat) (v : Byte) : (s.bindName n v).txcie = s.txcie := rfl
@[simp] theorem State.bindName_udrie (n : Nat) (v : Byte) : (s.bindName n v).udrie = s.udrie := rfl
@[simp] theorem State.bindName_rxen (n : Nat) (v : Byte) : (s.bindName n v).rxen = s.rxen := rfl
@[simp] theorem State.bindName_txen (n : Nat) (v : Byte) : (s.bindName n v).txen = s.txen := rfl
@[simp] theorem State.bindName_ucsz2 (n : Nat) (v : Byte) : (s.bindName n v).ucsz2 = s.ucsz2 := rfl
@[simp] theorem State.bindName_txb8 (n : Nat) (v : Byte) : (s.bindName n v).txb8 = s.txb8 := rfl
@[simp] theorem State.bindName_ucsrc (n : Nat) (v : Byte) : (s.bindName n v).ucsrc = s.ucsrc := rfl
@[simp] theorem State.bindName_txc (n : Nat) (v : Byte) : (s.bindName n v).txc = s.txc := rfl
@[simp] theorem State.bindName_dor (n : Nat) (v : Byte) : (s.bindName n v).dor = s.dor := rfl
@[simp] theorem State.bindName_u2x (n : Nat) (v : Byte) : (s.bindName n v).u2x = s.u2x := rfl
@[simp] theorem State.bindName_mpcm (n : Nat) (v : Byte) : (s.bindName n v).mpcm = s.mpcm := rfl
@[simp] theorem State.bindName_ubrrh (n : Nat) (v : Byte) : (s.bindName n v).ubrrh = s.ubrrh := rfl
@[simp] theorem State.bindName_ubrrl (n : Nat) (v : Byte) : (s.bindName n v).ubrrl = s.ubrrl := rfl
@[simp] theorem State.bindName_txBuf (n : Nat) (v : Byte) : (s.bindName n v).txBuf = s.txBuf := rfl
@[simp] theorem State.bindName_txShift (n : Nat) (v : Byte) : (s.bindName n v).txShift = s.txShift := rfl
@[simp] theorem State.bindName_rxFifo (n : Nat) (v : Byte) : (s.bindName n v).rxFifo = s.rxFifo := rfl
@[simp] theorem State.bindName_txWire (n : Nat) (v : Byte) : (s.bindName n v).txWire = s.txWire := rfl
@[simp] theorem State.bindName_fault (n : Nat) (v : Byte) : (s.bindName n v).fault = s.fault := rfl
@[simp] theorem State.bindName_refused (n : Nat) (v : Byte) : (s.bindName n v).refused = s.refused := rfl
@[simp] theorem State.bindName_tasks (n : Nat) (v : Byte) : (s.bindName n v).tasks = s.tasks := rfl
@[simp] theorem State.bindName_result (n : Nat) (v : Byte) : (s.bindName n v).result = s.result := rfl
@[simp] theorem State.bindName_hostMem (n : Nat) (v : Byte) : (s.bindName n v).hostMem = s.hostMem := rfl
@[simp] theorem State.bindName_names (n : Nat) (v : Byte) : (s.bindName n v).names = Memory.write s.names n v := rfl
@[simp] theorem State.bindName_agenda (n : Nat) (v : Byte) : (s.bindName n v).agenda = s.agenda := rfl
@[simp] theorem State.bindName_waited (n : Nat) (v : Byte) : (s.bindName n v).waited = s.waited := rfl
@[simp] theorem State.bindName_round (n : Nat) (v : Byte) : (s.bindName n v).round = s.round := rfl
@[simp] theorem State.bindName_draws (n : Nat) (v : Byte) : (s.bindName n v).draws = s.draws := rfl

/-! ### `State.withTasks` -/

@[simp] theorem State.withTasks_rxcie (ts : List HostOp) : (s.withTasks ts).rxcie = s.rxcie := rfl
@[simp] theorem State.withTasks_txcie (ts : List HostOp) : (s.withTasks ts).txcie = s.txcie := rfl
@[simp] theorem State.withTasks_udrie (ts : List HostOp) : (s.withTasks ts).udrie = s.udrie := rfl
@[simp] theorem State.withTasks_rxen (ts : List HostOp) : (s.withTasks ts).rxen = s.rxen := rfl
@[simp] theorem State.withTasks_txen (ts : List HostOp) : (s.withTasks ts).txen = s.txen := rfl
@[simp] theorem State.withTasks_ucsz2 (ts : List HostOp) : (s.withTasks ts).ucsz2 = s.ucsz2 := rfl
@[simp] theorem State.withTasks_txb8 (ts : List HostOp) : (s.withTasks ts).txb8 = s.txb8 := rfl
@[simp] theorem State.withTasks_ucsrc (ts : List HostOp) : (s.withTasks ts).ucsrc = s.ucsrc := rfl
@[simp] theorem State.withTasks_txc (ts : List HostOp) : (s.withTasks ts).txc = s.txc := rfl
@[simp] theorem State.withTasks_dor (ts : List HostOp) : (s.withTasks ts).dor = s.dor := rfl
@[simp] theorem State.withTasks_u2x (ts : List HostOp) : (s.withTasks ts).u2x = s.u2x := rfl
@[simp] theorem State.withTasks_mpcm (ts : List HostOp) : (s.withTasks ts).mpcm = s.mpcm := rfl
@[simp] theorem State.withTasks_ubrrh (ts : List HostOp) : (s.withTasks ts).ubrrh = s.ubrrh := rfl
@[simp] theorem State.withTasks_ubrrl (ts : List HostOp) : (s.withTasks ts).ubrrl = s.ubrrl := rfl
@[simp] theorem State.withTasks_txBuf (ts : List HostOp) : (s.withTasks ts).txBuf = s.txBuf := rfl
@[simp] theorem State.withTasks_txShift (ts : List HostOp) : (s.withTasks ts).txShift = s.txShift := rfl
@[simp] theorem State.withTasks_rxFifo (ts : List HostOp) : (s.withTasks ts).rxFifo = s.rxFifo := rfl
@[simp] theorem State.withTasks_txWire (ts : List HostOp) : (s.withTasks ts).txWire = s.txWire := rfl
@[simp] theorem State.withTasks_fault (ts : List HostOp) : (s.withTasks ts).fault = s.fault := rfl
@[simp] theorem State.withTasks_refused (ts : List HostOp) : (s.withTasks ts).refused = s.refused := rfl
@[simp] theorem State.withTasks_tasks (ts : List HostOp) : (s.withTasks ts).tasks = ts := rfl
@[simp] theorem State.withTasks_result (ts : List HostOp) : (s.withTasks ts).result = s.result := rfl
@[simp] theorem State.withTasks_hostMem (ts : List HostOp) : (s.withTasks ts).hostMem = s.hostMem := rfl
@[simp] theorem State.withTasks_names (ts : List HostOp) : (s.withTasks ts).names = s.names := rfl
@[simp] theorem State.withTasks_agenda (ts : List HostOp) : (s.withTasks ts).agenda = s.agenda := rfl
@[simp] theorem State.withTasks_waited (ts : List HostOp) : (s.withTasks ts).waited = s.waited := rfl
@[simp] theorem State.withTasks_round (ts : List HostOp) : (s.withTasks ts).round = s.round := rfl
@[simp] theorem State.withTasks_draws (ts : List HostOp) : (s.withTasks ts).draws = s.draws := rfl

end Sys2Proof.Machine
end

