-- ==== Sys2Proof/Laws/Ops.lean ====
section
/-!
SUPPORT. What the shared operations can do: the guard of a marked state, the marks, the host's memories.
-/

namespace Sys2Proof.Machine

/-- In a live state the guard lets the operation through. -/
@[simp] theorem whenLive_of_live {s : State} {k : Result} (h : s.live) : whenLive s k = k := by
  simp [whenLive, h.1, h.2]

/-- The guard answers a next state exactly where the state is live and the operation answers it. -/
theorem whenLive_next_iff {s t : State} {k : Result} : whenLive s k = .next t ↔ s.live ∧ k = .next t := by
  unfold whenLive
  split
  · rename_i h; simp [State.live, h]
  · rename_i h
    split
    · rename_i h'; simp [State.live, h']
    · rename_i h'; simp [State.live, h, h']

/-- In a marked state the guard answers no next state. -/
theorem whenLive_marked {s : State} {k : Result} (h : ¬ s.live) (t : State) : whenLive s k ≠ .next t :=
  fun hn => h (whenLive_next_iff.1 hn).1

/-- A state with a mark set is not live. -/
theorem not_live_raiseFault (s : State) (r : FaultReason) (info : Info) : ¬ (s.raiseFault r info).live := by
  simp [State.live]

/-- A state with a mark set is not live. -/
theorem not_live_refuse (s : State) (r : RefusalReason) (info : Info) : ¬ (s.refuse r info).live := by
  simp [State.live]

namespace Memory

@[simp] theorem read_nil (a : Nat) : Memory.read [] a = none := rfl

theorem read_cons (k : Nat) (v : Byte) (m : Memory) (a : Nat) :
    Memory.read ((k, v) :: m) a = if a = k then some v else Memory.read m a := rfl

/-- A read after a write to the same key gives the byte written. -/
@[simp] theorem read_write_same (m : Memory) (a : Nat) (v : Byte) : Memory.read (Memory.write m a v) a = some v := by
  induction m with
  | nil => simp [Memory.write, read_cons]
  | cons c m ih =>
    obtain ⟨k, w⟩ := c
    by_cases hlt : a < k
    · simp [Memory.write, hlt, read_cons]
    · by_cases heq : a = k
      · simp [Memory.write, heq, read_cons]
      · simp [Memory.write, hlt, heq, read_cons, ih]

/-- A write leaves every other key alone. -/
theorem read_write_other {m : Memory} {a b : Nat} (v : Byte) (h : b ≠ a) :
    Memory.read (Memory.write m a v) b = Memory.read m b := by
  induction m with
  | nil => simp [Memory.write, read_cons, h]
  | cons c m ih =>
    obtain ⟨k, w⟩ := c
    by_cases hlt : a < k
    · simp [Memory.write, hlt, read_cons, h]
    · by_cases heq : a = k
      · subst heq; simp [Memory.write, read_cons, h]
      · simp [Memory.write, hlt, heq, read_cons, ih]

/-- The keys after a write are the keys before it and the key written. -/
theorem mem_keys_write {m : Memory} {a : Nat} {v : Byte} {b : Nat} (h : b ∈ (Memory.write m a v).map Prod.fst) :
    b = a ∨ b ∈ m.map Prod.fst := by
  induction m with
  | nil => simpa [Memory.write] using h
  | cons c m ih =>
    obtain ⟨k, w⟩ := c
    by_cases hlt : a < k
    · simpa [Memory.write, hlt] using h
    · by_cases heq : a = k
      · subst heq; simpa [Memory.write] using h
      · simp only [Memory.write, hlt, heq, if_false, List.map_cons, List.mem_cons] at h ⊢
        rcases h with h | h
        · exact .inr (.inl h)
        · rcases ih h with h | h
          · exact .inl h
          · exact .inr (.inr h)

/-- A write keeps the canonical form. -/
theorem wf_write {m : Memory} (h : Memory.wf m) (a : Nat) (v : Byte) : Memory.wf (Memory.write m a v) := by
  induction m with
  | nil => simp [Memory.wf, Memory.write]
  | cons c m ih =>
    obtain ⟨k, w⟩ := c
    simp only [Memory.wf, List.map_cons, List.pairwise_cons] at h
    by_cases hlt : a < k
    · simp only [Memory.wf, Memory.write, hlt, if_true, List.map_cons, List.pairwise_cons]
      refine ⟨?_, h⟩
      intro b hb
      rcases List.mem_cons.1 hb with rfl | hb
      · exact hlt
      · exact hlt.trans (h.1 b hb)
    · by_cases heq : a = k
      · subst heq
        simpa [Memory.wf, Memory.write] using h
      · simp only [Memory.wf, Memory.write, hlt, heq, if_false, List.map_cons, List.pairwise_cons]
        refine ⟨?_, ih h.2⟩
        intro b hb
        rcases mem_keys_write hb with rfl | hb
        · omega
        · exact h.1 b hb

/-- A key that is read is listed. -/
theorem mem_of_read {m : Memory} {a : Nat} {v : Byte} (h : Memory.read m a = some v) : (a, v) ∈ m := by
  induction m with
  | nil => simp at h
  | cons c m ih =>
    obtain ⟨k, w⟩ := c
    rw [read_cons] at h
    split at h
    · next heq => simp_all
    · exact List.mem_cons_of_mem _ (ih h)

end Memory

/-- A store to host memory happens exactly where the memory admits the address, and is the write (44_host_driver). -/
theorem storeHost_eq_some {s t : State} {a : Nat} {v : Byte} :
    s.storeHost a v = some t ↔
      (∃ b, Memory.read s.hostMem a = some b) ∧ t = { s with hostMem := Memory.write s.hostMem a v } := by
  unfold State.storeHost
  split
  · rename_i h; simp [h]
  · rename_i b h; simp [h, eq_comm]

end Sys2Proof.Machine
end

