-- ==== Sys2Proof/Laws/Flags.lean ====
section
/-!
SUPPORT. The bits of the composed register values, and what the named updates leave of the derived flags.
-/

namespace Sys2Proof.Machine

theorem packBits_getLsbD (b7 b6 b5 b4 b3 b2 b1 b0 : Bool) :
    (packBits b7 b6 b5 b4 b3 b2 b1 b0).getLsbD 7 = b7 ∧ (packBits b7 b6 b5 b4 b3 b2 b1 b0).getLsbD 6 = b6 ∧
    (packBits b7 b6 b5 b4 b3 b2 b1 b0).getLsbD 5 = b5 ∧ (packBits b7 b6 b5 b4 b3 b2 b1 b0).getLsbD 4 = b4 ∧
    (packBits b7 b6 b5 b4 b3 b2 b1 b0).getLsbD 3 = b3 ∧ (packBits b7 b6 b5 b4 b3 b2 b1 b0).getLsbD 2 = b2 ∧
    (packBits b7 b6 b5 b4 b3 b2 b1 b0).getLsbD 1 = b1 ∧ (packBits b7 b6 b5 b4 b3 b2 b1 b0).getLsbD 0 = b0 := by
  revert b7 b6 b5 b4 b3 b2 b1 b0
  decide

/-- Bit 7 of UCSRA is RXC. -/
@[simp] theorem ucsraValue_bit7 (s : State) : s.ucsraValue.getLsbD 7 = s.rxc := (packBits_getLsbD ..).1

/-- Bit 5 of UCSRA is UDRE. -/
@[simp] theorem ucsraValue_bit5 (s : State) : s.ucsraValue.getLsbD 5 = s.udre := (packBits_getLsbD ..).2.2.1

/-- UDRE is set exactly when the data buffer is empty. -/
theorem udre_iff (s : State) : s.udre = true ↔ s.txBuf = none := by simp [State.udre]

/-- RXC is set exactly when the receive buffer holds an entry. -/
theorem rxc_iff (s : State) : s.rxc = true ↔ s.rxFifo ≠ [] := by simp [State.rxc]

/-- The transmitter is idle exactly when buffer and shift register are empty. -/
theorem not_txBusy_iff (s : State) : s.txBusy = false ↔ s.txBuf = none ∧ s.txShift = none := by simp [State.txBusy]

/-- The transmitter is busy exactly when the buffer or the shift register holds a byte. -/
theorem txBusy_iff (s : State) : s.txBusy = true ↔ s.txBuf ≠ none ∨ s.txShift ≠ none := by
  simp [State.txBusy, Option.isSome_iff_ne_none]

end Sys2Proof.Machine
end

