-- ==== Sys2Proof/Laws/Exec.lean ====
section
/-!
SUPPORT. What each operation and each agent's turn can do, one lemma each, so that no later proof unfolds a meaning.
-/

namespace Sys2Proof.Machine

/-- The state an operation leaves where it runs. -/
def effect (i : Instr) (s : State) : State :=
  match i with
  | .rdUcsra => s.reply s.ucsraValue
  | .wrUcsra v => s.writeUcsra v
  | .rdUcsrb => s.reply s.ucsrbValue
  | .wrUcsrb v => s.writeUcsrb v
  | .rdUcsrc => s.reply s.ucsrc
  | .wrUcsrc v => s.writeUcsrc v
  | .rdUbrrl => s.reply s.ubrrl
  | .wrUbrrl v => s.writeUbrrl v
  | .rdUbrrh => s.reply s.ubrrhValue
  | .wrUbrrh v => s.writeUbrrh v
  | .rdUdr => s.readUdr
  | .wrUdr v => s.writeUdr v

/-- Every operation is its effect behind the guard of a marked state. -/
theorem exec_eq_effect (i : Instr) (s : State) : exec i s = whenLive s (.next (effect i s)) := by
  cases i <;> rfl

/-- An operation answers a next state exactly in a live state, and it is its effect. -/
theorem exec_next_iff {i : Instr} {s t : State} : exec i s = .next t ↔ s.live ∧ t = effect i s := by
  rw [exec_eq_effect, whenLive_next_iff]
  simp [eq_comm]

/-- A write of UCSRA is refused, or only TXC can fall. -/
theorem writeUcsra_cases (s : State) (v : Byte) :
    (∃ r info, s.writeUcsra v = s.refuse r info) ∨
      s.writeUcsra v = { s with txc := if v.getLsbD 6 then false else s.txc }.done := by
  unfold State.writeUcsra
  split
  · exact .inl ⟨_, _, rfl⟩
  · split
    · exact .inl ⟨_, _, rfl⟩
    · split
      · exact .inl ⟨_, _, rfl⟩
      · exact .inr rfl

/-- A write of UCSRB is refused, or it sets the enables, and then it disables neither a busy transmitter nor a receiver that
holds data. -/
theorem writeUcsrb_cases (s : State) (v : Byte) :
    (∃ r info, s.writeUcsrb v = s.refuse r info) ∨
      (s.writeUcsrb v = { s with rxen := v.getLsbD 4, txen := v.getLsbD 3, txb8 := v.getLsbD 0 }.done ∧
        (s.txen = true → v.getLsbD 3 = false → s.txBuf = none ∧ s.txShift = none) ∧
        (s.rxen = true → v.getLsbD 4 = false → s.rxFifo = [])) := by
  unfold State.writeUcsrb
  dsimp only
  split
  · exact .inl ⟨_, _, rfl⟩
  · split
    · exact .inl ⟨_, _, rfl⟩
    · split
      · exact .inl ⟨_, _, rfl⟩
      · rename_i hb
        split
        · exact .inl ⟨_, _, rfl⟩
        · rename_i hr
          refine .inr ⟨rfl, fun h1 h2 => ?_, fun h1 h2 => ?_⟩
          · rw [← not_txBusy_iff]; simpa only [h1, h2, Bool.true_and, Bool.not_false, Bool.not_eq_true] using hb
          · simpa only [h1, h2, Bool.true_and, Bool.not_false, State.rxc, Bool.not_eq_true, Bool.not_eq_false',
              List.isEmpty_iff] using hr

/-- A write of UCSRC is refused, or it writes 0x06. -/
theorem writeUcsrc_cases (s : State) (v : Byte) :
    (∃ r info, s.writeUcsrc v = s.refuse r info) ∨ s.writeUcsrc v = { s with ucsrc := 0x06 }.done := by
  unfold State.writeUcsrc
  split
  · exact .inl ⟨_, _, rfl⟩
  · exact .inr rfl

/-- A write of UBRRL is refused, or it writes the low divisor byte. -/
theorem writeUbrrl_cases (s : State) (v : Byte) :
    (∃ r info, s.writeUbrrl v = s.refuse r info) ∨ s.writeUbrrl v = { s with ubrrl := v }.done := by
  unfold State.writeUbrrl
  split
  · exact .inl ⟨_, _, rfl⟩
  · exact .inr rfl

/-- A write of UBRRH is refused, or it writes the high divisor bits. -/
theorem writeUbrrh_cases (s : State) (v : Byte) :
    (∃ r info, s.writeUbrrh v = s.refuse r info) ∨ s.writeUbrrh v = { s with ubrrh := ubrrhField v }.done := by
  unfold State.writeUbrrh
  dsimp only
  split
  · exact .inl ⟨_, _, rfl⟩
  · split
    · exact .inl ⟨_, _, rfl⟩
    · exact .inr rfl

/-- A write of UDR faults, with an overrun only on a full buffer, or it fills the empty buffer of an enabled transmitter. -/
theorem writeUdr_cases (s : State) (v : Byte) :
    (∃ r info, s.writeUdr v = s.raiseFault r info ∧ (r = .txOverrun → s.txBuf ≠ none)) ∨
      (s.writeUdr v = { s with txBuf := some v }.done ∧ s.txen = true ∧ s.txBuf = none) := by
  unfold State.writeUdr
  dsimp only
  split
  · exact .inl ⟨_, _, rfl, by simp⟩
  · rename_i h
    split
    · rename_i h'; exact .inl ⟨_, _, rfl, fun _ => h'⟩
    · rename_i h'; exact .inr ⟨rfl, by simpa using h, by simpa using h'⟩

/-- A read of UDR takes the head of the receive buffer, or draws a free byte when it is empty. -/
theorem readUdr_cases (s : State) :
    (s.rxFifo = [] ∧ s.readUdr = s.drew.reply s.drawnByte) ∨
      ∃ e rest, s.rxFifo = e :: rest ∧ s.readUdr = { s with rxFifo := rest, dor := false }.reply e.data := by
  unfold State.readUdr
  split
  · rename_i h; exact .inl ⟨h, rfl⟩
  · rename_i e rest h; exact .inr ⟨e, rest, h, rfl⟩

/-- No operation touches what is the host's: its memories and what it does next. -/
theorem effect_host (i : Instr) (s : State) :
    (effect i s).hostMem = s.hostMem ∧ (effect i s).names = s.names ∧ (effect i s).tasks = s.tasks := by
  cases i <;> simp only [effect]
  case wrUcsra v => rcases writeUcsra_cases s v with ⟨_, _, he⟩ | he <;> rw [he] <;> exact ⟨rfl, rfl, rfl⟩
  case wrUcsrb v => rcases writeUcsrb_cases s v with ⟨_, _, he⟩ | ⟨he, -⟩ <;> rw [he] <;> exact ⟨rfl, rfl, rfl⟩
  case wrUcsrc v => rcases writeUcsrc_cases s v with ⟨_, _, he⟩ | he <;> rw [he] <;> exact ⟨rfl, rfl, rfl⟩
  case wrUbrrl v => rcases writeUbrrl_cases s v with ⟨_, _, he⟩ | he <;> rw [he] <;> exact ⟨rfl, rfl, rfl⟩
  case wrUbrrh v => rcases writeUbrrh_cases s v with ⟨_, _, he⟩ | he <;> rw [he] <;> exact ⟨rfl, rfl, rfl⟩
  case rdUdr => rcases readUdr_cases s with ⟨_, he⟩ | ⟨_, _, -, he⟩ <;> rw [he] <;> exact ⟨rfl, rfl, rfl⟩
  case wrUdr v => rcases writeUdr_cases s v with ⟨_, _, he, -⟩ | ⟨he, -⟩ <;> rw [he] <;> exact ⟨rfl, rfl, rfl⟩
  all_goals exact ⟨rfl, rfl, rfl⟩

/-- No operation touches the order of turns. -/
theorem effect_order (i : Instr) (s : State) :
    (effect i s).agenda = s.agenda ∧ (effect i s).waited = s.waited ∧ (effect i s).round = s.round := by
  cases i <;> simp only [effect]
  case wrUcsra v => rcases writeUcsra_cases s v with ⟨_, _, he⟩ | he <;> rw [he] <;> exact ⟨rfl, rfl, rfl⟩
  case wrUcsrb v => rcases writeUcsrb_cases s v with ⟨_, _, he⟩ | ⟨he, -⟩ <;> rw [he] <;> exact ⟨rfl, rfl, rfl⟩
  case wrUcsrc v => rcases writeUcsrc_cases s v with ⟨_, _, he⟩ | he <;> rw [he] <;> exact ⟨rfl, rfl, rfl⟩
  case wrUbrrl v => rcases writeUbrrl_cases s v with ⟨_, _, he⟩ | he <;> rw [he] <;> exact ⟨rfl, rfl, rfl⟩
  case wrUbrrh v => rcases writeUbrrh_cases s v with ⟨_, _, he⟩ | he <;> rw [he] <;> exact ⟨rfl, rfl, rfl⟩
  case rdUdr => rcases readUdr_cases s with ⟨_, he⟩ | ⟨_, _, -, he⟩ <;> rw [he] <;> exact ⟨rfl, rfl, rfl⟩
  case wrUdr v => rcases writeUdr_cases s v with ⟨_, _, he, -⟩ | ⟨he, -⟩ <;> rw [he] <;> exact ⟨rfl, rfl, rfl⟩
  all_goals exact ⟨rfl, rfl, rfl⟩

/-- A load moves the byte of the buffer into the idle shift register, or nothing changes. -/
theorem txLoad_cases (s : State) :
    (∃ b, s.txen = true ∧ s.txShift = none ∧ s.txBuf = some b ∧ s.txLoad = { s with txShift := some b, txBuf := none }) ∨
      (s.txLoad = s ∧ (s.txen = false ∨ s.txShift ≠ none ∨ s.txBuf = none)) := by
  unfold State.txLoad
  split
  · rename_i b h1 h2 h3; exact .inl ⟨b, h1, h2, h3, rfl⟩
  · rename_i h
    refine .inr ⟨rfl, ?_⟩
    by_contra hc
    simp only [not_or, Bool.not_eq_false, not_not] at hc
    obtain ⟨b, hb⟩ := Option.ne_none_iff_exists'.1 hc.2.2
    exact h b hc.1 hc.2.1 hb

/-- A shift sends the byte of the shift register, or nothing changes. -/
theorem txShiftOut_cases (s : State) :
    (∃ b, s.txen = true ∧ s.txShift = some b ∧
        s.txShiftOut = { s with
          txWire := s.txWire ++ [b], txShift := none, txc := if s.txBuf = none then true else s.txc }) ∨
      (s.txShiftOut = s ∧ (s.txen = false ∨ s.txShift = none)) := by
  unfold State.txShiftOut
  split
  · rename_i b h1 h2; exact .inl ⟨b, h1, h2, rfl⟩
  · rename_i h
    refine .inr ⟨rfl, ?_⟩
    by_contra hc
    simp only [not_or, Bool.not_eq_false] at hc
    obtain ⟨b, hb⟩ := Option.ne_none_iff_exists'.1 hc.2
    exact h b hc.1 hb

/-- A frame is lost without a trace, lost with DOR set, or appended. -/
theorem rxFrame_cases (s : State) (b : Byte) (ok : Bool) :
    (s.rxen = false ∧ s.rxFrame b ok = s) ∨
      (s.rxen = true ∧ s.rxFifo.length = Config.rxDepth ∧ s.rxFrame b ok = { s with dor := true }) ∨
      (s.rxen = true ∧ s.rxFifo.length ≠ Config.rxDepth ∧
        s.rxFrame b ok = { s with rxFifo := s.rxFifo ++ [{ data := b, fe := !ok }] }) := by
  unfold State.rxFrame
  split
  · rename_i h; exact .inl ⟨by simpa using h, rfl⟩
  · rename_i h
    split
    · rename_i h'; exact .inr (.inl ⟨by simpa using h, h', rfl⟩)
    · rename_i h'; exact .inr (.inr ⟨by simpa using h, h', rfl⟩)

end Sys2Proof.Machine
end

