-- ==== Sys2Proof/Laws/Step.lean ====
section
/-!
SUPPORT. What a host turn and a step can do: one inversion lemma each, from which every invariant is derived.
-/

namespace Sys2Proof.Machine

/-- Storing to an admitted address keeps the host's memories in order. -/
theorem MemOk_store {s t : State} {a : Nat} {v : Byte} (h : s.storeHost a v = some t) :
    (∃ m, t = { s with hostMem := m }) ∧ (s.MemOk → t.MemOk) := by
  obtain ⟨⟨b, hb⟩, rfl⟩ := storeHost_eq_some.1 h
  refine ⟨⟨_, rfl⟩, fun hm => ⟨Memory.wf_write hm.hostMemSorted a v, hm.namesSorted, ?_⟩⟩
  intro c hc
  rcases Memory.mem_keys_write (List.mem_map_of_mem hc) with h | h
  · rw [h]; exact hm.outsideWindow _ (Memory.mem_of_read hb)
  · obtain ⟨c', hc', he⟩ := List.mem_map.1 h
    rw [← he]; exact hm.outsideWindow c' hc'

/-- Binding a name keeps the host's memories in order. -/
theorem MemOk_bindName {s : State} (n : Nat) (v : Byte) (h : s.MemOk) : (s.bindName n v).MemOk :=
  ⟨h.hostMemSorted, Memory.wf_write h.namesSorted n v, h.outsideWindow⟩

/-- Host-local computation: only the host's memories and the byte it holds may change, and the memories stay in order. -/
def HostLocal (s s' : State) : Prop :=
  (∃ m n r, s' = { s with hostMem := m, names := n, result := r }) ∧ (s.MemOk → s'.MemOk)

theorem HostLocal.refl (s : State) : HostLocal s s := ⟨⟨_, _, _, rfl⟩, id⟩

theorem HostLocal.trans {a b c : State} (h : HostLocal a b) (h' : HostLocal b c) : HostLocal a c := by
  obtain ⟨⟨_, _, _, rfl⟩, hm⟩ := h
  obtain ⟨⟨_, _, _, rfl⟩, hm'⟩ := h'
  exact ⟨⟨_, _, _, rfl⟩, fun x => hm' (hm x)⟩

theorem HostLocal.of_store {s t : State} {a : Nat} {v : Byte} (h : s.storeHost a v = some t) : HostLocal s t := by
  obtain ⟨⟨m, rfl⟩, hm⟩ := MemOk_store h
  exact ⟨⟨m, _, _, rfl⟩, hm⟩

/-- Host-local computation leaves the marks alone. -/
theorem HostLocal.live {s s' : State} (h : HostLocal s s') (hl : s.live) : s'.live := by
  obtain ⟨⟨_, _, _, rfl⟩, -⟩ := h
  exact hl

/-- A move's shape: what it has done locally, the mark it raises, and the tests it leaves for later: at most one, at the head,
and then the access is the read it tests. -/
def HostMove.Sound (rest : List HostOp) (s : State) : HostMove → Prop
  | .passed s' => HostLocal s s'
  | .access w after s' => HostLocal s s' ∧ s'.names = s.names ∧ s'.result = s.result ∧
      ((∀ op ∈ rest, op.isTest = false) →
        (∀ op ∈ after.tail, op.isTest = false) ∧
        ∀ reg bit ops, after = .waitTest reg bit :: ops → w = encode (readOf reg))
  | .marked s' => (∃ r info, r ≠ .txOverrun ∧ s' = s.raiseFault r info) ∨ ∃ r info, s' = s.refuse r info
  | .stuck => True

theorem pollThen_sound {reg : Reg} {bit : Fin 8} {after rest : List HostOp} {s : State}
    (h : (∀ op ∈ rest, op.isTest = false) → ∀ op ∈ after, op.isTest = false) :
    (pollThen reg bit after s).Sound rest s :=
  ⟨HostLocal.refl s, rfl, rfl, fun hr => ⟨h hr, fun _ _ _ he => by cases he; rfl⟩⟩

theorem putByte_sound {b : Byte} {after rest : List HostOp} {s : State}
    (h : (∀ op ∈ rest, op.isTest = false) → ∀ op ∈ after, op.isTest = false) :
    (putByte b after s).Sound rest s :=
  pollThen_sound fun hr op hop => by
    rcases List.mem_cons.1 hop with rfl | hop
    · rfl
    · exact h hr op hop

theorem takeByte_sound {after rest : List HostOp} {s : State}
    (h : (∀ op ∈ rest, op.isTest = false) → ∀ op ∈ after, op.isTest = false) :
    (takeByte after s).Sound rest s :=
  pollThen_sound fun hr op hop => by
    rcases List.mem_cons.1 hop with rfl | hop
    · rfl
    · exact h hr op hop

theorem putBytes_sound {bs : List Byte} {rest : List HostOp} {s : State} : (putBytes bs rest s).Sound rest s := by
  cases bs with
  | nil => exact HostLocal.refl s
  | cons b bs =>
    refine putByte_sound fun hr op hop => ?_
    rcases List.mem_append.1 hop with hop | hop
    · obtain ⟨_, _, rfl⟩ := List.mem_map.1 hop; rfl
    · exact hr op hop

/-- One access, nothing done before it and none of the host's tests left at the head of what follows. -/
theorem access_sound {w : ReqWord} {after rest : List HostOp} {s : State}
    (h : (∀ op ∈ rest, op.isTest = false) → ∀ op ∈ after, op.isTest = false) :
    (HostMove.access w after s).Sound rest s :=
  ⟨HostLocal.refl s, rfl, rfl, fun hr => ⟨fun op hop => h hr op (List.mem_of_mem_tail hop), fun _ _ _ he => by
    have := h hr _ (he ▸ List.mem_cons_self)
    simp [HostOp.isTest] at this⟩⟩

theorem setDivisor_sound {baud clk : ArithWord} {after rest : List HostOp} {s : State}
    (h : (∀ op ∈ rest, op.isTest = false) → ∀ op ∈ after, op.isTest = false) :
    (setDivisor baud clk after s).Sound rest s := by
  refine access_sound fun hr op hop => ?_
  rcases List.mem_cons.1 hop with rfl | hop
  · rfl
  · exact h hr op hop

theorem initSequence_sound {baud clk : ArithWord} {rest : List HostOp} {s : State} :
    (initSequence baud clk rest s).Sound rest s := by
  unfold initSequence
  split
  · refine setDivisor_sound fun hr op hop => ?_
    rcases List.mem_cons.1 hop with rfl | hop
    · rfl
    · rcases List.mem_cons.1 hop with rfl | hop
      · rfl
      · exact hr op hop
  · exact .inl ⟨_, _, by simp, rfl⟩

theorem endLine_sound {buf i : Nat} {rest : List HostOp} {s : State} : (endLine buf i s).Sound rest s := by
  unfold endLine
  split
  · trivial
  · rename_i h; exact HostLocal.of_store h

theorem lineLoop_sound {buf i n : Nat} {rest : List HostOp} {s : State} : (lineLoop buf i n rest s).Sound rest s := by
  unfold lineLoop
  split
  · refine takeByte_sound fun hr op hop => ?_
    rcases List.mem_cons.1 hop with rfl | hop
    · rfl
    · exact hr op hop
  · exact endLine_sound

/-- A sound move from a state reached by a store is a sound move. -/
theorem HostMove.Sound.after_store {rest : List HostOp} {s s' : State} {a : Nat} {v : Byte} {m : HostMove}
    (h : s.storeHost a v = some s') (hm : m.Sound rest s')
    (hmark : ∀ t, m ≠ .marked t) : m.Sound rest s := by
  have hloc := HostLocal.of_store h
  obtain ⟨⟨mem, he⟩, -⟩ := MemOk_store h
  cases m with
  | passed t => exact hloc.trans hm
  | access w after t =>
    obtain ⟨h1, h2, h3, h4⟩ := hm
    refine ⟨hloc.trans h1, h2.trans ?_, h3.trans ?_, h4⟩ <;> rw [he]
  | marked t => exact absurd rfl (hmark t)
  | stuck => trivial

theorem lineTake_sound {buf i n : Nat} {b : Byte} {rest : List HostOp} {s : State} :
    (lineTake buf i n b rest s).Sound rest s := by
  unfold lineTake
  split
  · exact endLine_sound
  · split
    · trivial
    · rename_i s' h
      refine HostMove.Sound.after_store h lineLoop_sound fun t => ?_
      unfold lineLoop takeByte pollThen endLine
      split
      · simp
      · split <;> simp

theorem hostAccess_sound {write : Bool} {addr width : Nat} {v : Byte} {rest : List HostOp} {s : State} :
    (hostAccess write addr width v rest s).Sound rest s := by
  unfold hostAccess
  split
  · split
    · exact access_sound fun hr => hr
    · split
      · split
        · trivial
        · rename_i h
          exact (HostLocal.of_store h).trans ⟨⟨_, _, _, rfl⟩, fun hm => ⟨hm.1, hm.2, hm.3⟩⟩
      · split
        · trivial
        · exact ⟨⟨_, _, _, rfl⟩, fun hm => ⟨hm.1, hm.2, hm.3⟩⟩
  · split
    · exact .inr ⟨_, _, rfl⟩
    · trivial

/-- What any host operation can do next. -/
theorem hostMove_sound (p : Config.HostParams) (op : HostOp) (rest : List HostOp) (s : State) :
    (hostMove p op rest s).Sound rest s := by
  have keep : (∀ op ∈ rest, op.isTest = false) → ∀ op ∈ rest, op.isTest = false := id
  cases op with
  | request w => exact access_sound keep
  | access write addr width v => exact hostAccess_sound
  | bind name =>
    simp only [hostMove]
    split
    · trivial
    · exact ⟨⟨_, _, _, rfl⟩, MemOk_bindName _ _⟩
  | putName name =>
    simp only [hostMove]
    split
    · trivial
    · exact putByte_sound keep
  | wait reg bit => exact pollThen_sound keep
  | waitTest reg bit =>
    simp only [hostMove]
    split
    · exact pollThen_sound keep
    · split
      · exact HostLocal.refl s
      · exact pollThen_sound keep
  | getName name =>
    refine takeByte_sound fun hr op hop => ?_
    rcases List.mem_cons.1 hop with rfl | hop
    · rfl
    · exact hr op hop
  | setBaud baud clk => exact setDivisor_sound keep
  | enTxRx => exact access_sound keep
  | setFmt => exact access_sound keep
  | initUart baud clk => exact initSequence_sound
  | writeByte b => exact putByte_sound keep
  | readByte => exact takeByte_sound keep
  | writeString a =>
    simp only [hostMove]
    split
    · trivial
    · split
      · exact HostLocal.refl s
      · refine putByte_sound fun hr op hop => ?_
        rcases List.mem_cons.1 hop with rfl | hop
        · rfl
        · exact hr op hop
  | writeHexNibble n => simp only [hostMove]; exact putBytes_sound
  | writeHex8 v => simp only [hostMove]; exact putBytes_sound
  | writeHex16 v => simp only [hostMove]; exact putBytes_sound
  | writeHex32 v => simp only [hostMove]; exact putBytes_sound
  | writeUnsigned8 v => simp only [hostMove]; exact putBytes_sound
  | writeUnsigned16 v => simp only [hostMove]; exact putBytes_sound
  | writeSigned8 v =>
    simp only [hostMove]
    split
    · exact .inr ⟨_, _, rfl⟩
    · exact putBytes_sound
  | writeSigned16 v =>
    simp only [hostMove]
    split
    · exact .inr ⟨_, _, rfl⟩
    · exact putBytes_sound
  | readLine buf =>
    simp only [hostMove]
    split
    · trivial
    · exact lineLoop_sound
  | lineByte buf i n =>
    simp only [hostMove]
    split
    · trivial
    · exact lineTake_sound

/-- Performing a request word: an operation's effect, or the refusal of its reservation. -/
theorem perform_next {w : ReqWord} {s t : State} (h : perform w s = .next t) :
    s.live ∧ ((∃ i, decode w = .op i ∧ t = effect i s) ∨
      ∃ r, decode w = .reserved r ∧ t = s.refuse (reservedReason r) (.word w)) := by
  unfold perform at h
  split at h
  · rename_i i hd
    exact ⟨(exec_next_iff.1 h).1, .inl ⟨i, hd, (exec_next_iff.1 h).2⟩⟩
  · rename_i r hd
    obtain ⟨hl, h⟩ := whenLive_next_iff.1 h
    exact ⟨hl, .inr ⟨r, hd, by simpa using h.symm⟩⟩

/-- The test inside a busy-wait is never stuck and raises no mark. -/
theorem isTest_moves {p : Config.HostParams} {op : HostOp} {rest : List HostOp} {s : State} (h : op.isTest = true) :
    (∃ s', hostMove p op rest s = .passed s') ∨ ∃ w after s', hostMove p op rest s = .access w after s' := by
  cases op with
  | waitTest reg bit =>
    simp only [hostMove, pollThen]
    split
    · exact .inr ⟨_, _, _, rfl⟩
    · split
      · exact .inl ⟨_, rfl⟩
      · exact .inr ⟨_, _, _, rfl⟩
  | _ => simp [HostOp.isTest] at h

/-- What a host turn can come to after its host-local computation: no access, a mark of the host's own, or one access. A test
left at the head is left by an access, and that access is the read it tests. -/
theorem runHost_next {p : Config.HostParams} {ops : List HostOp} {s t : State} (h : runHost p ops s = .next t) :
    ∃ s' ts, HostLocal s s' ∧
      (((t = s'.withTasks ts ∨ (∃ r info, r ≠ FaultReason.txOverrun ∧ t = (s'.withTasks ts).raiseFault r info) ∨
          ∃ r info, t = (s'.withTasks ts).refuse r info) ∧
        ((∀ op ∈ ops.tail, op.isTest = false) → ∀ op ∈ ts, op.isTest = false)) ∨
       ∃ w, perform w (s'.withTasks ts) = .next t ∧
        ((∀ op ∈ ops.tail, op.isTest = false) →
          (∀ op ∈ ts.tail, op.isTest = false) ∧
          ∀ reg bit rest, ts = .waitTest reg bit :: rest → w = encode (readOf reg))) := by
  induction ops generalizing s with
  | nil =>
    simp only [runHost, Host.Outcome.next.injEq] at h
    exact ⟨s, [], HostLocal.refl s, .inl ⟨.inl h.symm, by simp⟩⟩
  | cons op rest ih =>
    have hs := hostMove_sound p op rest s
    have noTest : (∀ s', hostMove p op rest s ≠ .passed s') → (∀ w a s', hostMove p op rest s ≠ .access w a s') →
        (∀ o ∈ rest, o.isTest = false) → ∀ o ∈ op :: rest, o.isTest = false := by
      intro h1 h2 hr o ho
      rcases List.mem_cons.1 ho with rfl | ho
      · by_contra hc
        rcases isTest_moves (p := p) (rest := rest) (s := s) (by simpa using hc) with ⟨s', he⟩ | ⟨w, a, s', he⟩
        · exact h1 s' he
        · exact h2 w a s' he
      · exact hr o ho
    simp only [runHost] at h
    split at h
    · rename_i s1 he
      rw [he] at hs
      obtain ⟨s', ts, hl, hc⟩ := ih h
      refine ⟨s', ts, HostLocal.trans hs hl, ?_⟩
      rcases hc with ⟨hc, ht⟩ | ⟨w, hp, ht⟩
      · exact .inl ⟨hc, fun hr => ht fun o ho => hr o (List.mem_of_mem_tail ho)⟩
      · exact .inr ⟨w, hp, fun hr => ht fun o ho => hr o (List.mem_of_mem_tail ho)⟩
    · rename_i w after s1 he
      rw [he] at hs
      exact ⟨s1, after, hs.1, .inr ⟨w, h, fun hr => hs.2.2.2 hr⟩⟩
    · rename_i s1 he
      rw [he] at hs noTest
      simp only [Host.Outcome.next.injEq] at h
      refine ⟨s, op :: rest, HostLocal.refl s, .inl ⟨.inr ?_, noTest (by simp) (by simp)⟩⟩
      rcases hs with ⟨r, info, hr, rfl⟩ | ⟨r, info, rfl⟩
      · exact .inl ⟨r, info, hr, h.symm⟩
      · exact .inr ⟨r, info, h.symm⟩
    · rename_i he
      rw [he] at noTest
      simp only [Host.Outcome.next.injEq] at h
      exact ⟨s, op :: rest, HostLocal.refl s, .inl ⟨.inl h.symm, noTest (by simp) (by simp)⟩⟩

/-- The state with the choice of the next turn made: only the fields of the order of turns differ. -/
theorem pickTurn_state (s : State) :
    ∃ a w r d, s.pickTurn.2 = { s with agenda := a, waited := w, round := r, draws := d } := by
  unfold State.pickTurn
  split
  · exact ⟨_, _, _, _, rfl⟩
  · split
    · exact ⟨_, _, _, _, rfl⟩
    · exact ⟨_, _, _, _, rfl⟩

/-- A step answers a next state exactly in a live state, by the turn picked. -/
theorem step_next_iff {s t : State} : step s = .next t ↔ s.live ∧ takeTurn s.pickTurn.1 s.pickTurn.2 = .next t :=
  whenLive_next_iff

/-- What one turn can come to: a transmitter step, a line step, or the host's. -/
theorem takeTurn_next {turn : Config.Turn} {s t : State} (h : takeTurn turn s = .next t) :
    (turn = .txLoad ∧ t = s.txLoad) ∨ (turn = .txShift ∧ t = s.txShiftOut) ∨
      (∃ b ok, turn = .rxFrame b ok ∧ t = s.rxFrame b ok) ∨
      (turn = .host ∧ runHost Config.hostParams s.tasks s = .next t) := by
  cases turn with
  | host => exact .inr (.inr (.inr ⟨rfl, h⟩))
  | txLoad => exact .inl ⟨rfl, by simpa [takeTurn] using h.symm⟩
  | txShift => exact .inr (.inl ⟨rfl, by simpa [takeTurn] using h.symm⟩)
  | rxFrame b ok => exact .inr (.inr (.inl ⟨b, ok, rfl, by simpa [takeTurn] using h.symm⟩))

/-- What a step can do: it starts in a live state and is one turn of one agent, after the choice of that turn. -/
theorem step_cases {s t : State} (h : step s = .next t) :
    s.live ∧ ∃ a w r d s1, s1 = { s with agenda := a, waited := w, round := r, draws := d } ∧
      (t = s1.txLoad ∨ t = s1.txShiftOut ∨ (∃ b ok, t = s1.rxFrame b ok) ∨
        runHost Config.hostParams s1.tasks s1 = .next t) := by
  obtain ⟨hl, h⟩ := step_next_iff.1 h
  obtain ⟨a, w, r, d, hp⟩ := pickTurn_state s
  refine ⟨hl, a, w, r, d, s.pickTurn.2, hp, ?_⟩
  rcases takeTurn_next h with ⟨-, h⟩ | ⟨-, h⟩ | ⟨b, ok, -, h⟩ | ⟨-, h⟩
  · exact .inl h
  · exact .inr (.inl h)
  · exact .inr (.inr (.inl ⟨b, ok, h⟩))
  · exact .inr (.inr (.inr h))

/-- What a host turn can come to, resolved to host-local computation ended by nothing, by a mark, or by one operation's
effect. -/
theorem runHost_effect {p : Config.HostParams} {ops : List HostOp} {s t : State} (h : runHost p ops s = .next t) :
    ∃ s' ts, HostLocal s s' ∧ (t = s'.withTasks ts ∨ MarkedOnly (s'.withTasks ts) t ∨
      ∃ i, t = effect i (s'.withTasks ts)) := by
  obtain ⟨s', ts, hloc, hc⟩ := runHost_next h
  refine ⟨s', ts, hloc, ?_⟩
  rcases hc with ⟨hc, -⟩ | ⟨w, hp, -⟩
  · rcases hc with hc | ⟨r, info, -, hc⟩ | ⟨r, info, hc⟩
    · exact .inl hc
    · exact .inr (.inl (.inl ⟨r, info, hc⟩))
    · exact .inr (.inl (.inr ⟨r, info, hc⟩))
  · rcases (perform_next hp).2 with ⟨i, -, hi⟩ | ⟨r, -, hr⟩
    · exact .inr (.inr ⟨i, hi⟩)
    · exact .inr (.inl (.inr ⟨_, _, hr⟩))

/-- What a step can do, by the turn picked, the host's turn resolved. -/
theorem step_turn {s t : State} (h : step s = .next t) :
    s.live ∧ ∃ a w r d s1, s1 = { s with agenda := a, waited := w, round := r, draws := d } ∧
      ((s.pickTurn.1 = .txLoad ∧ t = s1.txLoad) ∨ (s.pickTurn.1 = .txShift ∧ t = s1.txShiftOut) ∨
        (∃ b ok, s.pickTurn.1 = .rxFrame b ok ∧ t = s1.rxFrame b ok) ∨
        (s.pickTurn.1 = .host ∧ ∃ s2 ts, HostLocal s1 s2 ∧ (t = s2.withTasks ts ∨ MarkedOnly (s2.withTasks ts) t ∨
          ∃ i, t = effect i (s2.withTasks ts)))) := by
  obtain ⟨hl, h⟩ := step_next_iff.1 h
  obtain ⟨a, w, r, d, hp⟩ := pickTurn_state s
  refine ⟨hl, a, w, r, d, s.pickTurn.2, hp, ?_⟩
  rcases takeTurn_next h with h | h | h | ⟨hx, h⟩
  · exact .inl h
  · exact .inr (.inl h)
  · exact .inr (.inr (.inl h))
  · exact .inr (.inr (.inr ⟨hx, runHost_effect h⟩))

/-- What a step can do, whichever turn it is, the host's turn resolved. -/
theorem step_effect {s t : State} (h : step s = .next t) :
    s.live ∧ ∃ a w r d s1, s1 = { s with agenda := a, waited := w, round := r, draws := d } ∧
      (t = s1.txLoad ∨ t = s1.txShiftOut ∨ (∃ b ok, t = s1.rxFrame b ok) ∨
        ∃ s2 ts, HostLocal s1 s2 ∧ (t = s2.withTasks ts ∨ MarkedOnly (s2.withTasks ts) t ∨
          ∃ i, t = effect i (s2.withTasks ts))) := by
  obtain ⟨hl, a, w, r, d, s1, hs1, hc⟩ := step_turn h
  refine ⟨hl, a, w, r, d, s1, hs1, ?_⟩
  rcases hc with ⟨-, hc⟩ | ⟨-, hc⟩ | ⟨b, ok, -, hc⟩ | ⟨-, hc⟩
  · exact .inl hc
  · exact .inr (.inl hc)
  · exact .inr (.inr (.inl ⟨b, ok, hc⟩))
  · exact .inr (.inr (.inr hc))

/-- A request word performed in a live state answers a next state. -/
theorem perform_total {s : State} (h : s.live) (w : ReqWord) : ∃ t, perform w s = .next t := by
  unfold perform
  split
  · exact ⟨_, exec_next_iff.2 ⟨h, rfl⟩⟩
  · exact ⟨_, whenLive_of_live h⟩

/-- A host turn in a live state answers a next state. -/
theorem runHost_total (p : Config.HostParams) (ops : List HostOp) {s : State} (h : s.live) :
    ∃ t, runHost p ops s = .next t := by
  induction ops generalizing s with
  | nil => exact ⟨_, rfl⟩
  | cons op rest ih =>
    have hs := hostMove_sound p op rest s
    simp only [runHost]
    split
    · rename_i s' he
      rw [he] at hs
      exact ih (HostLocal.live hs h)
    · rename_i w after s' he
      rw [he] at hs
      have hl' : s'.live := HostLocal.live hs.1 h
      exact perform_total (s := s'.withTasks after) hl' w
    · exact ⟨_, rfl⟩
    · exact ⟨_, rfl⟩

/-- A step in a live state answers a next state. -/
theorem step_total {s : State} (h : s.live) : ∃ t, step s = .next t := by
  have hl : s.pickTurn.2.live := by
    obtain ⟨a, w, r, d, hp⟩ := pickTurn_state s
    rw [hp]; exact h
  have : ∃ t, takeTurn s.pickTurn.1 s.pickTurn.2 = .next t := by
    cases s.pickTurn.1 with
    | host => exact runHost_total _ _ hl
    | txLoad => exact ⟨_, rfl⟩
    | txShift => exact ⟨_, rfl⟩
    | rxFrame b ok => exact ⟨_, rfl⟩
  obtain ⟨t, ht⟩ := this
  exact ⟨t, step_next_iff.2 ⟨h, ht⟩⟩

/-- The order of turns moves by the choice of the turn alone. -/
theorem step_order {s t : State} (h : step s = .next t) :
    t.agenda = s.pickTurn.2.agenda ∧ t.waited = s.pickTurn.2.waited ∧ t.round = s.pickTurn.2.round := by
  obtain ⟨-, h⟩ := step_next_iff.1 h
  generalize s.pickTurn.2 = s1 at h
  rcases takeTurn_next h with ⟨-, rfl⟩ | ⟨-, rfl⟩ | ⟨b, ok, -, rfl⟩ | ⟨-, h⟩
  · rcases txLoad_cases s1 with ⟨b, -, -, -, he⟩ | ⟨he, -⟩ <;> rw [he] <;> exact ⟨rfl, rfl, rfl⟩
  · rcases txShiftOut_cases s1 with ⟨b, -, -, he⟩ | ⟨he, -⟩ <;> rw [he] <;> exact ⟨rfl, rfl, rfl⟩
  · rcases rxFrame_cases s1 b ok with ⟨-, he⟩ | ⟨-, -, he⟩ | ⟨-, -, he⟩ <;> rw [he] <;> exact ⟨rfl, rfl, rfl⟩
  · obtain ⟨s2, ts, ⟨⟨m, n, r, rfl⟩, -⟩, hc⟩ := runHost_effect h
    rcases hc with rfl | (⟨r, info, rfl⟩ | ⟨r, info, rfl⟩) | ⟨i, rfl⟩
    · exact ⟨rfl, rfl, rfl⟩
    · exact ⟨rfl, rfl, rfl⟩
    · exact ⟨rfl, rfl, rfl⟩
    · exact effect_order i _

/-- A step on a turn already chosen is that turn, with the choice taken off. -/
theorem step_of_agenda {s : State} {turn : Config.Turn} {ts : List Config.Turn} (h : s.agenda = turn :: ts) :
    step s = whenLive s (takeTurn turn { s with agenda := ts }) := by
  unfold step State.pickTurn
  rw [h]

/-- A step on the host's turn runs the host over what it has to do. -/
theorem step_of_host {s : State} {ts : List Config.Turn} (hl : s.live) (h : s.agenda = .host :: ts) :
    step s = runHost Config.hostParams s.tasks { s with agenda := ts } := by
  rw [step_of_agenda h, whenLive_of_live hl]
  rfl

/-- One step, as a run. -/
theorem core_run_succ (n : Nat) {s t : State} (h : step s = .next t) :
    Host.Core.run Sys2Proof.core (n + 1) s = Host.Core.run Sys2Proof.core n t := by
  have h' : Sys2Proof.core.step s = .next t := h
  simp only [Host.Core.run, h']

end Sys2Proof.Machine
end

