-- ==== Sys2Proof/Laws/Fairness.lean ====
section
/-!
SUPPORT. Weak fairness of the order of turns, packaged once: whatever holds until an obliged agent's turn and is settled by that
turn is settled after finitely many steps (42_transmit R223, 44_host_driver R270).
-/

namespace Sys2Proof.Machine

/-- A run of some steps ends in a state that meets `Q`. -/
def Eventually (Q : State → Prop) (s : State) : Prop := ∃ n t, Host.Core.run Sys2Proof.core n s = .next t ∧ Q t

theorem Eventually.now {Q : State → Prop} {s : State} (h : Q s) : Eventually Q s := ⟨0, s, rfl, h⟩

theorem Eventually.step {Q : State → Prop} {s t : State} (h : step s = .next t) (ht : Eventually Q t) : Eventually Q s := by
  obtain ⟨n, u, hn, hu⟩ := ht
  exact ⟨n + 1, u, (core_run_succ n h).trans hn, hu⟩

/-- A run of `m` steps and then of `n` steps is a run of `n + m` steps. -/
theorem core_run_trans {m : Nat} : ∀ {s t : State} (n : Nat), Host.Core.run Sys2Proof.core m s = .next t →
    Host.Core.run Sys2Proof.core (n + m) s = Host.Core.run Sys2Proof.core n t := by
  induction m with
  | zero => intro s t n h; cases h; rfl
  | succ m ih =>
    intro s t n h
    cases hs : Sys2Proof.core.step s with
    | next u =>
      simp only [Host.Core.run, hs] at h
      rw [← ih n h, ← Nat.add_assoc]
      simp only [Host.Core.run, hs]
    | fault r => simp [Host.Core.run, hs] at h
    | refused r => simp [Host.Core.run, hs] at h

theorem Eventually.bind {P Q : State → Prop} {s : State} (h : Eventually P s) (hPQ : ∀ t, P t → Eventually Q t) :
    Eventually Q s := by
  obtain ⟨m, t, hm, ht⟩ := h
  obtain ⟨n, u, hn, hu⟩ := hPQ t ht
  exact ⟨n + m, u, (core_run_trans n hm).trans hn, hu⟩

/-- Rounds that agree modulo 3 oblige the same turn. -/
theorem fairTurn_mod (r j : Nat) (h : r % 3 = j % 3) : fairTurn r = fairTurn j := by simp [fairTurn, h]

/-- `P` holds in live states only and lasts until `Q` holds; the turn `fairTurn j` settles `Q`; then `Q` is settled after finitely
many steps. -/
theorem eventually_of_fair {P Q : State → Prop} (j : Nat) (live : ∀ s, P s → s.live)
    (keep : ∀ s t, P s → step s = .next t → P t ∨ Q t)
    (settle : ∀ s t, P s → s.pickTurn.1 = fairTurn j → step s = .next t → Q t) :
    ∀ s, P s → Eventually Q s := by
  -- one step: settled, or `P` again in a state whose order of turns is the one picked
  have one : ∀ s, P s → (∀ t, P t → step s = .next t → s.pickTurn.1 ≠ fairTurn j →
      t.agenda = s.pickTurn.2.agenda → t.waited = s.pickTurn.2.waited → t.round = s.pickTurn.2.round → Eventually Q t) →
      Eventually Q s := by
    intro s hP next
    obtain ⟨t, ht⟩ := step_total (live s hP)
    by_cases hx : s.pickTurn.1 = fairTurn j
    · exact (Eventually.now (settle s t hP hx ht)).step ht
    · obtain ⟨h1, h2, h3⟩ := step_order ht
      rcases keep s t hP ht with hPt | hQ
      · exact (next t hPt ht hx h1 h2 h3).step ht
      · exact (Eventually.now hQ).step ht
  -- no turn chosen beforehand: rounds, then free turns
  have free : ∀ d k s, P s → s.agenda = [] → (s.round + d) % 3 = j % 3 → Config.gap s.round - s.waited = k →
      Eventually Q s := by
    intro d
    induction d with
    | zero =>
      intro k
      induction k with
      | zero =>
        intro s hP ha hr hk
        refine one s hP fun t hPt ht hx h1 h2 h3 => absurd ?_ hx
        have hge : ¬ s.waited < Config.gap s.round := by omega
        simp only [State.pickTurn, ha, hge, if_false]
        exact fairTurn_mod _ _ (by simpa using hr)
      | succ k ih =>
        intro s hP ha hr hk
        have hlt : s.waited < Config.gap s.round := by omega
        refine one s hP fun t hPt ht hx h1 h2 h3 => ?_
        simp only [State.pickTurn, ha, hlt, if_true] at h1 h2 h3
        exact ih t hPt h1 (by rw [h3]; exact hr) (by rw [h2, h3]; omega)
    | succ d ihd =>
      intro k
      induction k with
      | zero =>
        intro s hP ha hr hk
        have hge : ¬ s.waited < Config.gap s.round := by omega
        refine one s hP fun t hPt ht hx h1 h2 h3 => ?_
        simp only [State.pickTurn, ha, hge, if_false] at h1 h2 h3
        exact ihd _ t hPt h1 (by rw [h3]; rw [← hr]; congr 1; omega) rfl
      | succ k ih =>
        intro s hP ha hr hk
        have hlt : s.waited < Config.gap s.round := by omega
        refine one s hP fun t hPt ht hx h1 h2 h3 => ?_
        simp only [State.pickTurn, ha, hlt, if_true] at h1 h2 h3
        exact ih t hPt h1 (by rw [h3]; exact hr) (by rw [h2, h3]; omega)
  intro s hP
  induction ha : s.agenda generalizing s with
  | nil => exact free ((j % 3 + 3 - s.round % 3)) _ s hP ha (by omega) rfl
  | cons x xs ih =>
    refine one s hP fun t hPt ht hx h1 h2 h3 => ?_
    simp only [State.pickTurn, ha] at h1
    exact ih t hPt h1

end Sys2Proof.Machine
end

