-- ==== Sys2Proof/Laws/PerInstr.lean ====
section
/-!
SUPPORT. One statement per operation, about the operation as syntax: its request is well formed and its request word has exactly
those fields (30_encoding R110, R113, R115).
-/

namespace Sys2Proof.Laws.Fields

/-- The operation's request passes every check of the decoder, and its request word carries the request's fields. -/
def Statement (i : Instr) : Prop := i.request.wellFormed = true ∧ Request.ofWord (encode i) = i.request

theorem rdUcsra : Statement .rdUcsra := ⟨rfl, Request.ofWord_toWord _⟩

theorem wrUcsra (v : Byte) : Statement (.wrUcsra v) := ⟨rfl, Request.ofWord_toWord _⟩

theorem rdUcsrb : Statement .rdUcsrb := ⟨rfl, Request.ofWord_toWord _⟩

theorem wrUcsrb (v : Byte) : Statement (.wrUcsrb v) := ⟨rfl, Request.ofWord_toWord _⟩

theorem rdUcsrc : Statement .rdUcsrc := ⟨rfl, Request.ofWord_toWord _⟩

theorem wrUcsrc (v : Byte) : Statement (.wrUcsrc v) := ⟨rfl, Request.ofWord_toWord _⟩

theorem rdUbrrl : Statement .rdUbrrl := ⟨rfl, Request.ofWord_toWord _⟩

theorem wrUbrrl (v : Byte) : Statement (.wrUbrrl v) := ⟨rfl, Request.ofWord_toWord _⟩

theorem rdUbrrh : Statement .rdUbrrh := ⟨rfl, Request.ofWord_toWord _⟩

theorem wrUbrrh (v : Byte) : Statement (.wrUbrrh v) := ⟨rfl, Request.ofWord_toWord _⟩

theorem rdUdr : Statement .rdUdr := ⟨rfl, Request.ofWord_toWord _⟩

theorem wrUdr (v : Byte) : Statement (.wrUdr v) := ⟨rfl, Request.ofWord_toWord _⟩

end Sys2Proof.Laws.Fields
end

