-- ==== Sys2Proof/Tests/Slice0.lean ====
section
/-!
SUPPORT. Tests on fixed values, the expected results from spec/95_test_vectors.md (the vector is named at each), and for every
statement with hypotheses a state and operands that meet them.
-/

namespace Sys2Proof.Tests

open Sys2Proof Sys2Proof.Machine

/-- `I0`: the state `initialize(9600, 16000000)` leaves (95_test_vectors, section 0). -/
def i0 : State := { State.reset with ubrrl := 0x68, rxen := true, txen := true }

/-- `I0` with the transmit data buffer and the shift register given. -/
def i0Tx (buf shift : Option Byte) : State := { i0 with txBuf := buf, txShift := shift }

/-- `I0` with one received byte. -/
def i0Rx (b : Byte) (fe : Bool) : State := { i0 with rxFifo := [⟨b, fe⟩] }

/-- The state with the host's next operations and the turns to come. -/
def withHost (s : State) (ops : List HostOp) (turns : List Config.Turn) : State := { s with tasks := ops, agenda := turns }

/-- The bytes a formatting sequence is going to send, in order. -/
def sends : HostMove → List Byte
  | .access _ (.waitTest _ _ :: ops) _ => ops.filterMap fun op =>
      match op with
      | .request w => some (Request.ofWord w).data
      | .writeByte b => some b
      | _ => none
  | _ => []

/-! ### Well-formed requests and the decoder -/

/-- Offset 3 is refused, in a read and in a write. -/
theorem test_wf_offset3 : Request.wellFormed ⟨false, 3, 0⟩ = false ∧ Request.wellFormed ⟨true, 3, 0x41⟩ = false := by decide

/-- Offset 7 is refused. -/
theorem test_wf_offset7 : Request.wellFormed ⟨true, 7, 0xFF⟩ = false := by decide

/-- A read with a data field other than 0 is refused; a write with it is not. -/
theorem test_wf_readData : Request.wellFormed ⟨false, 6, 1⟩ = false ∧ Request.wellFormed ⟨true, 6, 1⟩ = true := by decide

/-- V-E1 to V-E6: W = 0, A, D = 0 written out bit by bit. -/
theorem test_decode_reads :
    decode 0b000000000000#12 = .op .rdUcsra ∧ decode 0b000100000000#12 = .op .rdUcsrb ∧
    decode 0b001000000000#12 = .op .rdUcsrc ∧ decode 0b010000000000#12 = .op .rdUbrrl ∧
    decode 0b010100000000#12 = .op .rdUbrrh ∧ decode 0b011000000000#12 = .op .rdUdr := by decide

/-- V-E7 to V-E13, V-E21: W = 1, A, D written out bit by bit. -/
theorem test_decode_writes :
    decode 0b100000000000#12 = .op (.wrUcsra 0x00) ∧ decode 0b100100011000#12 = .op (.wrUcsrb 0x18) ∧
    decode 0b101000000110#12 = .op (.wrUcsrc 0x06) ∧ decode 0b110001101000#12 = .op (.wrUbrrl 0x68) ∧
    decode 0b110100000000#12 = .op (.wrUbrrh 0x00) ∧ decode 0b110111111111#12 = .op (.wrUbrrh 0xFF) ∧
    decode 0b111001000001#12 = .op (.wrUdr 0x41) ∧ decode 0b111011111111#12 = .op (.wrUdr 0xFF) := by decide

/-- V-E14 to V-E20: the reserved words, the offset before the read data. -/
theorem test_decode_reserved :
    decode 0x0FF = .reserved .reservedReadData ∧ decode 0x601 = .reserved .reservedReadData ∧
    decode 0x300 = .reserved .reservedOffset ∧ decode 0x3FF = .reserved .reservedOffset ∧
    decode 0xB41 = .reserved .reservedOffset ∧ decode 0x700 = .reserved .reservedOffset ∧
    decode 0xFFF = .reserved .reservedOffset := by decide

/-- The table's numbering: the word itself, and a thirteenth bit is no request (30_encoding R116). -/
theorem test_decodeTableWord :
    decodeTableWord 16 0xE41 = some (.wrUdr 0x41) ∧ decodeTableWord 16 0x300 = none ∧ decodeTableWord 16 0x1000 = none := by
  decide

/-- 30_encoding R117: the hexadecimal, binary, decimal and character forms of an immediate. -/
theorem test_assemble :
    assemble ['W', 'R', ' ', 'U', 'C', 'S', 'R', 'B', ',', ' ', '0', 'x', '1', '8'] = some 0x918 ∧
    assemble ['W', 'R', ' ', 'U', 'C', 'S', 'R', 'B', ',', ' ', '2', '4'] = some 0x918 ∧
    assemble ['W', 'R', ' ', 'U', 'D', 'R', ',', ' ', '0', 'b', '1', '1'] = some 0xE03 ∧
    assemble ['W', 'R', ' ', 'U', 'D', 'R', ',', ' ', '\'', 'A', '\''] = some 0xE41 ∧
    assemble ['R', 'D', ' ', 'U', 'D', 'R'] = some 0x600 := by decide

/-! ### The register accesses -/

/-- V-C1, V-T14, V-R3: UCSRA after reset, with a full data buffer, and with a bad frame at the head. -/
theorem test_rdUcsra : State.reset.ucsraValue = 0x20 ∧ (i0Tx (some 0x41) none).ucsraValue = 0x00 ∧
    (i0Rx 0x62 true).ucsraValue = 0xB0 := by decide

/-- V-C1 as one operation. -/
theorem test_rdUcsra_exec : exec .rdUcsra State.reset = .next { State.reset with result := some 0x20 } := rfl

/-- V-C7, V-C8: writing 1 clears TXC, writing 0 does not. -/
theorem test_wrUcsra_txc :
    exec (.wrUcsra 0x40) { i0 with txc := true } = .next i0 ∧
    exec (.wrUcsra 0x00) { i0 with txc := true } = .next { i0 with txc := true } := ⟨rfl, rfl⟩

/-- V-C15, V-C16, V-C14: the three refusals in their order. -/
theorem test_wrUcsra_refusals :
    exec (.wrUcsra 0x13) State.reset = .next { State.reset with refused := some (.errorFlagWrite, .word 0x813) } ∧
    exec (.wrUcsra 0x03) State.reset = .next { State.reset with refused := some (.doubleSpeed, .word 0x803) } ∧
    exec (.wrUcsra 0x01) State.reset = .next { State.reset with refused := some (.multiProcessor, .word 0x801) } :=
  ⟨rfl, rfl, rfl⟩

/-- V-C2, V-C5. -/
theorem test_rdUcsrb : exec .rdUcsrb State.reset = .next { State.reset with result := some 0x00 } ∧
    exec .rdUcsrb i0 = .next { i0 with result := some 0x18 } := ⟨rfl, rfl⟩

/-- V-C23, V-C24: TXB8 is written, RXB8 is not. -/
theorem test_wrUcsrb :
    exec (.wrUcsrb 0x19) State.reset = .next { State.reset with rxen := true, txen := true, txb8 := true } ∧
    exec (.wrUcsrb 0x1A) State.reset = .next { State.reset with rxen := true, txen := true } := ⟨rfl, rfl⟩

/-- V-C21, V-C22, V-C29, V-C28: the four refusals in their order. -/
theorem test_wrUcsrb_refusals :
    exec (.wrUcsrb 0x9C) State.reset = .next { State.reset with refused := some (.interruptEnable, .word 0x99C) } ∧
    exec (.wrUcsrb 0x1C) State.reset = .next { State.reset with refused := some (.unsupportedFrame, .word 0x91C) } ∧
    exec (.wrUcsrb 0x00) { i0Rx 0x61 false with txBuf := some 0x41 } =
      .next { i0Rx 0x61 false with txBuf := some 0x41, refused := some (.txDisableBusy, .word 0x900) } ∧
    exec (.wrUcsrb 0x08) (i0Rx 0x61 false) =
      .next { i0Rx 0x61 false with refused := some (.rxDisableNonEmpty, .word 0x908) } := ⟨rfl, rfl, rfl, rfl⟩

/-- V-C3. -/
theorem test_rdUcsrc : exec .rdUcsrc State.reset = .next { State.reset with result := some 0x06 } := rfl

/-- V-C31, V-C32. -/
theorem test_wrUcsrc : exec (.wrUcsrc 0x06) State.reset = .next State.reset ∧
    exec (.wrUcsrc 0x86) State.reset = .next { State.reset with refused := some (.unsupportedFrame, .word 0xA86) } :=
  ⟨rfl, rfl⟩

/-- V-C5. -/
theorem test_rdUbrrl : exec .rdUbrrl i0 = .next { i0 with result := some 0x68 } := rfl

/-- V-C42, V-C40: a busy receiver does not hinder the write, a busy transmitter does. -/
theorem test_wrUbrrl :
    exec (.wrUbrrl 0x33) (i0Rx 0x61 false) = .next { i0Rx 0x61 false with ubrrl := 0x33 } ∧
    exec (.wrUbrrl 0x33) (i0Tx none (some 0x41)) =
      .next { i0Tx none (some 0x41) with refused := some (.baudChangeBusy, .word 0xC33) } := ⟨rfl, rfl⟩

/-- V-C36. -/
theorem test_rdUbrrh : exec .rdUbrrh { i0 with ubrrh := 0xF } = .next { i0 with ubrrh := 0xF, result := some 0x0F } := rfl

/-- V-C36, V-C39: the reserved bits before the busy transmitter. -/
theorem test_wrUbrrh :
    exec (.wrUbrrh 0x0F) i0 = .next { i0 with ubrrh := 0xF } ∧
    exec (.wrUbrrh 0x10) (i0Tx none (some 0x41)) =
      .next { i0Tx none (some 0x41) with refused := some (.reservedBits, .word 0xD10) } := ⟨rfl, rfl⟩

/-- V-R3, V-R7: the oldest byte is returned and DOR is cleared. -/
theorem test_rdUdr :
    exec .rdUdr { i0 with rxFifo := [⟨0x61, false⟩, ⟨0x62, true⟩], dor := true } =
      .next { i0 with rxFifo := [⟨0x62, true⟩], result := some 0x61 } := rfl

/-- V-R5: an empty buffer returns a free byte, whatever it is, and no register changes. -/
theorem test_rdUdr_empty :
    exec .rdUdr i0 = .next { i0 with result := some (Config.freeByte 0), draws := 1 } := rfl

/-- V-T3: a byte is queued behind the shift register. -/
theorem test_wrUdr : exec (.wrUdr 0x42) (i0Tx none (some 0x41)) = .next (i0Tx (some 0x42) (some 0x41)) := rfl

/-- V-T7, V-T8. -/
theorem test_wrUdr_faults :
    exec (.wrUdr 0x43) (i0Tx (some 0x41) none) =
      .next { i0Tx (some 0x41) none with fault := some (.txOverrun, .word 0xE43) } ∧
    exec (.wrUdr 0x41) State.reset = .next { State.reset with fault := some (.txDisabled, .word 0xE41) } := ⟨rfl, rfl⟩

/-- V-C47: with a mark set nothing has a step. -/
theorem test_marked :
    exec .rdUcsra { State.reset with refused := some (.interruptEnable, .word 0x980) } =
      .refused (.refusedAccess .interruptEnable (.word 0x980)) ∧
    step { State.reset with fault := some (.txDisabled, .word 0xE41) } = .fault (.faulted .txDisabled (.word 0xE41)) :=
  ⟨rfl, rfl⟩

/-! ### Steps -/

/-- A placed request word is what the next step performs. -/
theorem test_step_placed :
    step (State.reset.withFetchWord 16 0x918) = .next { State.reset with rxen := true, txen := true } := rfl

/-- V-C43, V-C45: reserved words are refused. -/
theorem test_step_reserved :
    step (State.reset.withFetchWord 16 0x300) =
      .next { State.reset with refused := some (.reservedOffset, .word 0x300) } ∧
    step (State.reset.withFetchWord 16 0x001) =
      .next { State.reset with refused := some (.reservedReadData, .word 0x001) } := ⟨rfl, rfl⟩

/-- V-T2, V-T9: a load, and a load that is not enabled. -/
theorem test_txLoad : (i0Tx (some 0x41) none).txLoad = i0Tx none (some 0x41) ∧
    (i0Tx (some 0x42) (some 0x41)).txLoad = i0Tx (some 0x42) (some 0x41) := ⟨rfl, rfl⟩

/-- V-T4, V-T6: TXC is set only when nothing stands behind the frame. -/
theorem test_txShift : (i0Tx (some 0x42) (some 0x41)).txShiftOut = { i0Tx (some 0x42) none with txWire := [0x41] } ∧
    (i0Tx none (some 0x41)).txShiftOut = { i0 with txc := true, txWire := [0x41] } := ⟨rfl, rfl⟩

/-- V-R1, V-R8: a frame with the receiver enabled and with it disabled. -/
theorem test_rxFrame : i0.rxFrame 0x61 true = i0Rx 0x61 false ∧ State.reset.rxFrame 0x55 true = State.reset := by
  refine ⟨?_, rfl⟩
  simp [State.rxFrame, i0, i0Rx, State.reset, Config.rxDepth]

/-- V-C46: a 16-bit access at UBRRL and UBRRH. -/
theorem test_wideAccess :
    step (withHost i0 [.access true (Config.uartBase + 4) 2 0] [.host]) =
      .next { withHost i0 [.access true (Config.uartBase + 4) 2 0] [] with
        refused := some (.wideAccess, .wide (Config.uartBase + 4) 2) } := by
  have h : touchesWindow (Config.uartBase + 4) 2 = true := decide_eq_true (by omega)
  simp [step, whenLive, State.pickTurn, withHost, takeTurn, hostTurn, runHost, hostMove, hostAccess, h, State.refuse,
    State.withTasks, i0, State.reset]

/-! ### The divisor compute unit -/

/-- V-D1, V-D14, V-D15, V-D17. -/
theorem test_divisor :
    baudDivisor 9600 16000000 = ⟨104, 0x00, 0x68, true⟩ ∧ baudDivisor 245 16000000 = ⟨4082, 0x0F, 0xF2, true⟩ ∧
    (baudDivisor 244 16000000).valid = false ∧ (baudDivisor 1066667 16000000).valid = false := by decide

/-- V-D18, V-D19, V-D22: baud not below the clock, baud 0, an overflowing sum. -/
theorem test_divisor_invalid :
    divisorValid 16000000 16000000 = false ∧ divisorValid 0 16000000 = false ∧ divisorValid 1 4294967295 = false := by decide

/-! ### The host sequences -/

/-- V-I1, V-I11: the first bus word of `initialize`, and its refusal by a busy transmitter. -/
theorem test_initUart :
    step (withHost State.reset [.initUart 9600 16000000] [.host]) =
      .next (withHost State.reset [.request 0xC68, .enTxRx, .setFmt] []) ∧
    step (withHost (i0Tx none (some 0x41)) [.initUart 9600 16000000] [.host]) =
      .next { withHost (i0Tx none (some 0x41)) [.request 0xC68, .enTxRx, .setFmt] [] with
        refused := some (.baudChangeBusy, .word 0xD00) } := ⟨rfl, rfl⟩

/-- V-I6: an invalid pair faults before any write. -/
theorem test_initUart_invalid :
    step (withHost State.reset [.initUart 0 16000000] [.host]) =
      .next { withHost State.reset [.initUart 0 16000000] [] with
        fault := some (.baudConfigInvalid, .baudClk 0 16000000) } := rfl

/-- 30_encoding R118 with the divisors of 40_baud_divisor R149: `SETBAUD` makes no test of the pair; the divisor 0 is written as it
is, and the high byte 0x10 of 4099 meets UBRRH's own rule. -/
theorem test_setBaud :
    step (withHost i0 [.setBaud 1066667 16000000] [.host]) = .next (withHost i0 [.request 0xC00] []) ∧
    step (withHost i0 [.setBaud 244 16000000] [.host]) =
      .next { withHost i0 [.request 0xC03] [] with refused := some (.reservedBits, .word 0xD10) } := ⟨rfl, rfl⟩

/-- V-RB6: a poll that reads bit 5 = 0 polls again, one that reads 1 goes on to the write. -/
theorem test_writeByte :
    step (withHost { i0Tx (some 0x41) none with result := some 0x00 } [.waitTest .ucsra 5, .request 0xE42] [.host]) =
      .next { withHost (i0Tx (some 0x41) none) [.waitTest .ucsra 5, .request 0xE42] [] with result := some 0x00 } ∧
    step (withHost { i0Tx none (some 0x41) with result := some 0x20 } [.waitTest .ucsra 5, .request 0xE42] [.host]) =
      .next (i0Tx (some 0x42) (some 0x41)) := ⟨rfl, rfl⟩

/-- V-RB1: the read that follows the poll returns the received byte. -/
theorem test_readByte :
    step (withHost { i0Rx 0x61 false with result := some 0xA0 } [.waitTest .ucsra 7, .request 0x600] [.host]) =
      .next { i0 with result := some 0x61 } := rfl

/-- V-H3, V-H8, V-H10, V-H12. -/
theorem test_hex :
    sends (hostMove Config.hostParams (.writeHexNibble 0x1F) [] i0) = [0x46] ∧ hex8 0xA5 = [0x41, 0x35] ∧
    hex16 0x0A5F = [0x30, 0x41, 0x35, 0x46] ∧ hex32 0xDEADBEEF = [0x44, 0x45, 0x41, 0x44, 0x42, 0x45, 0x45, 0x46] := by
  decide

/-- V-H14, V-H18, V-H20, V-H22, V-H23: leading zeros are suppressed, inner zeros are not. -/
theorem test_unsigned :
    unsigned8 0 = [0x30] ∧ unsigned8 105 = [0x31, 0x30, 0x35] ∧ unsigned8 255 = [0x32, 0x35, 0x35] ∧
    unsigned16 10001 = [0x31, 0x30, 0x30, 0x30, 0x31] ∧ unsigned16 65535 = [0x36, 0x35, 0x35, 0x33, 0x35] := by decide

/-- V-S8: -123, -127 and 127 in both modes. -/
theorem test_signed8 :
    signed8 .rawByte 0x85 = [0x2D, 0x7B] ∧ signed8 .decimal 0x85 = [0x2D, 0x31, 0x32, 0x33] ∧
    signed8 .rawByte 0x81 = [0x2D, 0x7F] ∧ signed8 .decimal 0x7F = [0x31, 0x32, 0x37] := by decide

/-- V-S16: -123, -1 and -32767; E6 of the source. -/
theorem test_signed16 :
    signed16 0xFF85 = [0x2D, 0x31, 0x32, 0x33] ∧ signed16 0xFFFF = [0x2D, 0x31] ∧
    signed16 0x8001 = [0x2D, 0x33, 0x32, 0x37, 0x36, 0x37] ∧ signed16 0 = [0x30] := by decide

/-- V-S8, V-S16: the minimum value is refused and nothing is sent. -/
theorem test_signedMin :
    step (withHost i0 [.writeSigned8 0x80] [.host]) =
      .next { withHost i0 [.writeSigned8 0x80] [] with refused := some (.signedMinValue, .signed8 0x80) } := rfl

/-- V-H25, V-H27, V-H28, V-H29: what ends a string. -/
theorem test_stringStops : stringStops true 0x00 = true ∧ stringStops true 0xE9 = true ∧ stringStops false 0xE9 = false ∧
    stringStops true 0x80 = true ∧ stringStops true 0x48 = false := by decide

/-- V-RL1, V-RL3: the pre-call lengths. -/
theorem test_strlen :
    strlen [(8, 0x78), (9, 0x78), (10, 0x78), (11, 0x78), (12, 0x78), (13, 0)] 8 = some 5 ∧ strlen [(8, 0)] 8 = some 0 := by
  decide

/-- V-RL1, its third byte: a carriage return writes 0x00 at its index and ends the call. -/
theorem test_readLine_return :
    step (withHost { i0 with result := some 0x0D, hostMem := [(8, 0x61), (9, 0x62), (10, 0x78), (11, 0x78)] }
      [.lineByte 8 2 5] [.host]) =
      .next { i0 with result := some 0x0D, hostMem := [(8, 0x61), (9, 0x62), (10, 0x00), (11, 0x78)] } := rfl

/-- V-RL2, its last byte: at the limit 0x00 is written behind it. -/
theorem test_readLine_limit :
    step (withHost { i0 with result := some 0x71, hostMem := [(8, 0x70), (9, 0x79), (10, 0x00)] } [.lineByte 8 1 2] [.host]) =
      .next { i0 with result := some 0x71, hostMem := [(8, 0x70), (9, 0x71), (10, 0x00)] } := rfl

/-! ### Witnesses: states and operands that meet the hypotheses of the statements, clause by clause -/

/-- Reset and `I0` are live. -/
theorem test_hyp_live : State.reset.live ∧ i0.live := by decide

/-- DecodedWordIsItsEncoding. -/
theorem test_hyp_decodedWord : decode 0xFFF ≠ .op (.wrUdr 0xFF) ∧ decode 0xEFF = .op (.wrUdr 0xFF) := by decide

/-- DecoderReservations: a word for each branch, at the bounds. -/
theorem test_hyp_reservations :
    (0xBFF : ReqWord).extractLsb' 8 3 = 3 ∧ (0x700 : ReqWord).extractLsb' 8 3 = 7 ∧
    ((0x601 : ReqWord).getLsbD 11 = false ∧ (0x601 : ReqWord).extractLsb' 0 8 ≠ 0 ∧ (0x601 : ReqWord).extractLsb' 8 3 = 6) ∧
    ((0xE01 : ReqWord).getLsbD 11 = true ∧ (0xE01 : ReqWord).extractLsb' 8 3 = 6) := by decide

/-- StepRunsDecodedInstruction. -/
theorem test_hyp_stepRuns :
    (withHost i0 [.request 0xE41] [.host]).agenda = .host :: [] ∧
    (withHost i0 [.request 0xE41] [.host]).tasks = .request 0xE41 :: [] ∧ decode 0xE41 = .op (.wrUdr 0x41) := by decide

/-- ReservedRequestIsRefused: a live state for each branch. -/
theorem test_hyp_reservedRequest :
    (withHost i0 [.request 0x3FF] [.host]).live ∧ (0x3FF : ReqWord).extractLsb' 8 3 = 3 ∧
    (withHost i0 [.request 0x001] [.host]).live ∧ (0x001 : ReqWord).extractLsb' 8 3 = 0 ∧
    (0x001 : ReqWord).getLsbD 11 = false ∧ (0x001 : ReqWord).extractLsb' 0 8 ≠ 0 := by decide

/-- MarkedStateHasNoStep: each of the two marks. -/
theorem test_hyp_marked :
    ({ i0 with fault := some (.txOverrun, .word 0xE43) } : State).fault ≠ none ∧
    ({ i0 with refused := some (.reservedBits, .word 0xD10) } : State).refused ≠ none := by decide

/-- MarkingStepChangesNothingElse: a step that sets a mark. -/
theorem test_hyp_markingStep :
    step (State.reset.withFetchWord 16 0xE41) = .next { State.reset with fault := some (.txDisabled, .word 0xE41) } ∧
    ¬ ({ State.reset with fault := some (.txDisabled, .word 0xE41) } : State).live := ⟨rfl, by decide⟩

/-- WrUcsraClearsTxcOrRefuses: a byte for each clause, at the bounds. -/
theorem test_hyp_wrUcsra :
    ((0xE0 : Byte).extractLsb' 0 5 = 0 ∧ (0xE0 : Byte).getLsbD 6 = true) ∧ (0x04 : Byte).getLsbD 2 = true ∧
    (0x10 : Byte).getLsbD 4 = true ∧ ((0x03 : Byte).extractLsb' 2 3 = 0 ∧ (0x03 : Byte).getLsbD 1 = true) ∧
    ((0xE1 : Byte).extractLsb' 1 4 = 0 ∧ (0xE1 : Byte).getLsbD 0 = true) := by decide

/-- WrUcsrbWritesEnablesOrRefuses: the write with a busy transmitter kept, a receiver with data kept, both disabled while idle. -/
theorem test_hyp_wrUcsrb_writes :
    ((0x18 : Byte).extractLsb' 5 3 = 0 ∧ (0x18 : Byte).getLsbD 2 = false ∧ (0x18 : Byte).getLsbD 3 = true ∧
      (0x18 : Byte).getLsbD 4 = true) ∧
    ((0x00 : Byte).extractLsb' 5 3 = 0 ∧ (0x00 : Byte).getLsbD 2 = false ∧ i0.live ∧ i0.txBuf = none ∧ i0.txShift = none ∧
      i0.rxFifo = []) := by decide

/-- WrUcsrbWritesEnablesOrRefuses: each refusal. -/
theorem test_hyp_wrUcsrb_refusals :
    (0x20 : Byte).extractLsb' 5 3 ≠ 0 ∧ ((0x1C : Byte).extractLsb' 5 3 = 0 ∧ (0x1C : Byte).getLsbD 2 = true) ∧
    ((i0Tx none (some 0x41)).live ∧ ¬ ((0x10 : Byte).getLsbD 3 = true ∨ (i0Tx none (some 0x41)).txen = false ∨
      ((i0Tx none (some 0x41)).txBuf = none ∧ (i0Tx none (some 0x41)).txShift = none))) ∧
    ((i0Rx 0x61 false).live ∧ (0x08 : Byte).getLsbD 3 = true ∧ ¬ ((0x08 : Byte).getLsbD 4 = true ∨
      (i0Rx 0x61 false).rxen = false ∨ (i0Rx 0x61 false).rxFifo = [])) := by decide

/-- WrUcsrcAdmitsOnly8N1, WrUbrrlWritesLowDivisor, WrUbrrhWritesHighDivisor: each clause. -/
theorem test_hyp_formatAndDivisor :
    (0x07 : Byte) ≠ 0x06 ∧ (i0.txBuf = none ∧ i0.txShift = none) ∧ (i0Tx (some 0x41) none).txBuf ≠ none ∧
    (i0Tx none (some 0x41)).txShift ≠ none ∧ (0x0F : Byte).extractLsb' 4 4 = 0 ∧ (0x10 : Byte).extractLsb' 4 4 ≠ 0 ∧
    (i0Tx (some 0x41) none).live := by decide

/-- WrUdrFillsBufferOrFaults, RdUdrPopsOldest, RdUdrEmptyDrawsFreely: each clause. -/
theorem test_hyp_udr :
    (i0.txen = true ∧ i0.txBuf = none) ∧ State.reset.txen = false ∧
    ((i0Tx (some 0x41) none).txen = true ∧ (i0Tx (some 0x41) none).txBuf ≠ none) ∧
    ((i0Rx 0x61 true).live ∧ (i0Rx 0x61 true).rxFifo = ⟨0x61, true⟩ :: []) ∧ i0.rxFifo = [] := by decide

/-- The four frames: an operation of each that answers a next state. -/
theorem test_hyp_frames :
    exec .rdUbrrh i0 = .next { i0 with result := some 0x00 } ∧ exec .rdUdr (i0Rx 0x61 false) = .next { i0 with result := some 0x61 } ∧
    exec (.wrUcsrb 0x08) i0 = .next { i0 with rxen := false } ∧ exec (.wrUdr 0x41) i0 = .next (i0Tx (some 0x41) none) :=
  ⟨rfl, rfl, rfl, rfl⟩

/-- TxLoadMovesByte and TxShiftSendsByte: both clauses of each. -/
theorem test_hyp_transmit :
    ((withHost (i0Tx (some 0x41) none) [] [.txLoad]).live ∧ (withHost (i0Tx (some 0x41) none) [] [.txLoad]).txen = true ∧
      (withHost (i0Tx (some 0x41) none) [] [.txLoad]).txShift = none ∧
      (withHost (i0Tx (some 0x41) none) [] [.txLoad]).txBuf = some 0x41) ∧
    (withHost i0 [] [.txLoad]).txBuf = none ∧
    ((withHost (i0Tx none (some 0x41)) [] [.txShift]).live ∧ (withHost (i0Tx none (some 0x41)) [] [.txShift]).txen = true ∧
      (withHost (i0Tx none (some 0x41)) [] [.txShift]).txShift = some 0x41) ∧
    (withHost i0 [] [.txShift]).txShift = none := by decide

/-- RxFrameDelivered: the receiver disabled, the buffer full at the depth, and room for one more. -/
theorem test_hyp_rxFrame :
    State.reset.rxen = false ∧ (i0.rxen = true ∧ i0.rxFifo.length ≠ Config.rxDepth) ∧
    ({ i0 with rxFifo := List.replicate Config.rxDepth ⟨0x01, false⟩ } : State).rxFifo.length = Config.rxDepth := by
  refine ⟨rfl, ⟨rfl, ?_⟩, by simp⟩
  simp [i0, State.reset, Config.rxDepth]

/-- StepKeepsInvariants: `I0` meets the invariants and has a step. -/
theorem test_hyp_inv : i0.Inv ∧ step (i0.withFetchWord 16 0xE41) = .next (i0Tx (some 0x41) none) :=
  ⟨⟨by simp [i0, State.reset], by decide, by decide, by decide, by decide⟩, rfl⟩

/-- StepKeepsMemories: a state with a host memory outside the window. -/
theorem test_hyp_memOk :
    ({ i0 with hostMem := [(Config.uartBase + 7, 0x78), (Config.uartBase + 8, 0x00)] } : State).MemOk := by
  refine ⟨by simp [Memory.wf], by decide, ?_⟩
  intro c hc
  simp only [List.mem_cons, List.not_mem_nil, or_false] at hc
  rcases hc with rfl | rfl <;> simp [windowOffset]

/-- StepKeepsPolling and PolledWriteNeverOverruns: the host has just read UDRE as 1. -/
theorem test_hyp_polling :
    let s := withHost { i0 with result := some 0x20 } [.waitTest .ucsra 5, .request (encode (.wrUdr 0x42))] [.host]
    s.PollInv ∧ s.tasks = .waitTest .ucsra 5 :: .request (encode (.wrUdr 0x42)) :: [] ∧ s.agenda = .host :: [] ∧
      step s = .next (i0Tx (some 0x42) none) :=
  ⟨⟨by decide, fun _ _ _ _ _ => rfl⟩, rfl, rfl, rfl⟩

/-- WireOrderIsWriteOrder and ReceiveOrderIsDeliveryOrder: a step that takes a byte in, and one that takes one out. -/
theorem test_hyp_order :
    step (i0.withFetchWord 16 0xE41) = .next (i0Tx (some 0x41) none) ∧
    step ((i0Rx 0x61 false).withFetchWord 16 0x600) = .next { i0 with result := some 0x61 } := ⟨rfl, rfl⟩

/-- TxcChangesOnlyAsNamed: TXC rises, TXC falls. -/
theorem test_hyp_txc :
    step (withHost (i0Tx none (some 0x41)) [] [.txShift]) = .next { i0 with txc := true, txWire := [0x41] } ∧
    step ({ i0 with txc := true }.withFetchWord 16 0x840) = .next i0 := ⟨rfl, rfl⟩

/-- DorChangesOnlyAsNamed: DOR falls, DOR rises. -/
theorem test_hyp_dor :
    step ({ i0Rx 0x61 false with dor := true }.withFetchWord 16 0x600) = .next { i0 with result := some 0x61 } ∧
    ∃ t, step (withHost { i0 with rxFifo := List.replicate Config.rxDepth ⟨0x01, false⟩ } [] [.rxFrame 0x04 true]) = .next t ∧
      t.dor = true := by
  refine ⟨rfl, _, rfl, ?_⟩
  simp [State.rxFrame, State.pickTurn, withHost, i0]

/-- TransmitBytesAreHidden: two states that differ in the byte in the data buffer. -/
theorem test_hyp_hidden :
    (some (0x00 : Byte)).isSome = (i0Tx (some 0x41) none).txBuf.isSome ∧
    (none : Option Byte).isSome = (i0Tx (some 0x41) none).txShift.isSome ∧
    exec .rdUcsra (i0Tx (some 0x41) none) = .next { i0Tx (some 0x41) none with result := some 0x00 } := ⟨rfl, rfl, rfl⟩

/-- BufferedByteIsLoadedOrMarked and WriteByteCompletes. -/
theorem test_hyp_liveness :
    ((i0Tx (some 0x41) none).live ∧ (i0Tx (some 0x41) none).txen = true ∧ (i0Tx (some 0x41) none).txBuf = some 0x41) ∧
    (withHost i0 [.writeByte 0x41] []).live ∧ (withHost i0 [.writeByte 0x41] []).txen = true ∧
    (withHost i0 [.writeByte 0x41] []).tasks = .writeByte 0x41 :: [] := by decide

/-- The divisor statements: the smallest baud rate, the largest operands that conditions (a) to (c) admit, a valid pair. -/
theorem test_hyp_divisor :
    1 ≤ (1 : ArithWord).toNat ∧
    (1 ≤ (268435456 : ArithWord).toNat ∧ (268435456 : ArithWord).toNat < (4026531839 : ArithWord).toNat ∧
      (4026531839 : ArithWord).toNat + (268435456 : ArithWord).toNat ≤ 2 ^ 32 - 1 ∧
      (268435456 : ArithWord).toNat * 16 - 1 ≤ 2 ^ 32 - 1) ∧
    (baudDivisor 9600 16000000).valid = true := by decide

/-- InitUartConfigures and InvalidBaudFaults. -/
theorem test_hyp_initUart :
    let s := withHost State.reset [.initUart 245 16000000] [.host, .host, .host, .host]
    s.live ∧ s.txBusy = false ∧ divisorValid 245 16000000 = true ∧ s.tasks = .initUart 245 16000000 :: [] ∧
      s.agenda = .host :: .host :: .host :: .host :: [] ∧ divisorValid 244 16000000 = false := by decide

/-- ReadByteReturnsOldest and ReadByteWaits: waiting before any byte was returned, and after a read of UCSRA. -/
theorem test_hyp_readByte :
    let s := withHost (i0Rx 0x61 true) [.readByte] [.host, .host]
    let w := withHost { i0 with result := some 0x20 } [.waitTest .ucsra 7, .request 0x600] [.host]
    (s.live ∧ s.rxFifo = ⟨0x61, true⟩ :: [] ∧ s.tasks = .readByte :: [] ∧ s.agenda = .host :: .host :: []) ∧
      (w.live ∧ w.rxFifo = [] ∧ w.agenda = .host :: [] ∧ w.tasks = .waitTest .ucsra 7 :: [.request 0x600] ∧
        (0x20 : Byte).getLsbD 7 = false) ∧ i0.result = none := by decide

/-- AddressDecodeAndWidth: both ends of the window, a wide access that touches one byte of it at either end, an access of width 0 at
its first address, and an address behind it. -/
theorem test_hyp_window :
    (Config.uartBase ≤ Config.uartBase ∧ Config.uartBase ≤ Config.uartBase + 6) ∧
    (Config.uartBase ≤ Config.uartBase + 6 ∧ Config.uartBase + 6 ≤ Config.uartBase + 6) ∧
    (2 ≠ 1 ∧ Config.uartBase + 6 ≤ Config.uartBase + 6 ∧ Config.uartBase < Config.uartBase + 6 + max 2 1) ∧
    (0 ≠ 1 ∧ Config.uartBase ≤ Config.uartBase + 6 ∧ Config.uartBase < Config.uartBase + max 0 1) ∧
    Config.uartBase + 6 < Config.uartBase + 7 ∧
    (withHost i0 [.access false Config.uartBase 1 0] [.host]).live := ⟨by simp, by simp, by omega, by omega, by omega, by decide⟩

/-- MinimumSignedValuesRefused: both operations. -/
theorem test_hyp_signedMin :
    (withHost i0 [.writeSigned8 0x80] [.host]).live ∧ (withHost i0 [.writeSigned8 0x80] [.host]).agenda = .host :: [] ∧
    (withHost i0 [.writeSigned16 0x8000] [.host]).tasks = .writeSigned16 0x8000 :: [] := by decide

/-- Signed16IsSignAndMagnitude: the two ends beside the refused value. -/
theorem test_hyp_signed16 : ((0x8001 : BitVec 16) ≠ 0x8000 ∧ (0x8001 : BitVec 16).toInt < 0) ∧
    (0x7FFF : BitVec 16) ≠ 0x8000 ∧ 0 ≤ (0x7FFF : BitVec 16).toInt := by decide

/-- ReadLineStoresByte: a carriage return, a byte below the limit, a byte at it. -/
theorem test_hyp_readLine :
    let s : State := { i0 with result := some 0x0D, hostMem := [(8, 0x78), (9, 0x78), (10, 0x00)] }
    let u : State := { i0 with result := some 0x61, hostMem := [(8, 0x78), (9, 0x78), (10, 0x00)] }
    s.result = some 0x0D ∧ Memory.read s.hostMem (8 + 0) = some 0x78 ∧
      (u.result = some 0x61 ∧ (0x61 : Byte) ≠ 0x0D ∧ 0 + 1 < 2 ∧ Memory.read u.hostMem (8 + 0) = some 0x78) ∧
      (1 + 1 = 2 ∧ Memory.read u.hostMem (8 + 1) = some 0x78 ∧ Memory.read u.hostMem (8 + 2) = some 0x00) := by decide

/-- WriteStringStopsOrSends: 0x00, both sides of 128, either value of the parameter. -/
theorem test_hyp_writeString :
    Memory.read [(8, 0x00)] 8 = some 0x00 ∧ (Memory.read [(8, 0x80)] 8 = some 0x80 ∧ 0x80 ≤ (0x80 : Byte).toNat) ∧
    (Memory.read [(8, 0x7F)] 8 = some 0x7F ∧ ¬ ((0x7F : Byte) = 0x00 ∨ (true = true ∧ 0x80 ≤ (0x7F : Byte).toNat))) ∧
    ¬ ((0x80 : Byte) = 0x00 ∨ (false = true ∧ 0x80 ≤ (0x80 : Byte).toNat)) := by decide

/-- FormattersAreByteWrites: each of the eight sequences. -/
theorem test_hyp_formatters :
    [hexdigit ((0x0B : Byte).extractLsb' 0 4)] = 0x42 :: [] ∧ hex8 0x3C = 0x33 :: [0x43] ∧
    hex16 0 = 0x30 :: [0x30, 0x30, 0x30] ∧ hex32 1 = 0x30 :: [0x30, 0x30, 0x30, 0x30, 0x30, 0x30, 0x31] ∧
    unsigned8 9 = 0x39 :: [] ∧ unsigned16 1000 = 0x31 :: [0x30, 0x30, 0x30] ∧
    ((0xFB : Byte) ≠ 0x80 ∧ signed8 Config.hostParams.signed8Mode 0xFB = 0x2D :: [0x05]) ∧
    ((0xFC18 : BitVec 16) ≠ 0x8000 ∧ signed16 0xFC18 = 0x2D :: [0x31, 0x30, 0x30, 0x30]) := by decide

end Sys2Proof.Tests
end

section
/-!
PROOFS. The block's own flags and data (10_state): TXC and DOR change only as named, the bytes of the transmit path show in no
access, reset gives every field its value.
-/

namespace Sys2Proof.Machine

/-! ### What the turns and the operations leave of TXC and DOR -/

theorem SameBlock.trans {s t u : State} (h : SameBlock s t) (h' : SameBlock t u) : SameBlock s u := by
  simp_all [SameBlock, SameControl, SameDivisor, SameTransmit]

/-- A mark leaves the whole block as it is. -/
theorem MarkedOnly.sameBlock {s t : State} (h : MarkedOnly s t) : SameBlock s t := by
  rcases h with ⟨r, info, rfl⟩ | ⟨r, info, rfl⟩ <;> simp [SameBlock, SameControl, SameDivisor, SameTransmit]

/-- Host-local computation leaves the whole block as it is. -/
theorem HostLocal.sameBlock {s t : State} (h : HostLocal s t) : SameBlock s t := by
  obtain ⟨⟨_, _, _, rfl⟩, -⟩ := h
  simp [SameBlock, SameControl, SameDivisor, SameTransmit]

@[simp] theorem txLoad_txc (s : State) : s.txLoad.txc = s.txc := by
  rcases txLoad_cases s with ⟨b, -, -, -, he⟩ | ⟨he, -⟩ <;> rw [he]

@[simp] theorem txLoad_dor (s : State) : s.txLoad.dor = s.dor := by
  rcases txLoad_cases s with ⟨b, -, -, -, he⟩ | ⟨he, -⟩ <;> rw [he]

@[simp] theorem txShiftOut_dor (s : State) : s.txShiftOut.dor = s.dor := by
  rcases txShiftOut_cases s with ⟨b, -, -, he⟩ | ⟨he, -⟩ <;> rw [he]

@[simp] theorem rxFrame_txc (s : State) (b : Byte) (ok : Bool) : (s.rxFrame b ok).txc = s.txc := by
  rcases rxFrame_cases s b ok with ⟨-, he⟩ | ⟨-, -, he⟩ | ⟨-, -, he⟩ <;> rw [he]

/-- A shift that changes TXC sets it, and sends the byte of the shift register with nothing behind it (42_transmit R222). -/
theorem txShiftOut_of_txc_ne {s : State} (h : s.txShiftOut.txc ≠ s.txc) :
    ∃ b, s.txen = true ∧ s.txShift = some b ∧ s.txBuf = none ∧
      s.txShiftOut = { s with txWire := s.txWire ++ [b], txShift := none, txc := true } := by
  rcases txShiftOut_cases s with ⟨b, hen, hsh, he⟩ | ⟨he, -⟩
  · by_cases hbuf : s.txBuf = none
    · exact ⟨b, hen, hsh, hbuf, by rw [he, if_pos hbuf]⟩
    · simp [he, hbuf] at h
  · simp [he] at h

/-- A frame that changes DOR sets it, and is lost to a full buffer (43_receive R251). -/
theorem rxFrame_of_dor_ne {s : State} {b : Byte} {ok : Bool} (h : (s.rxFrame b ok).dor ≠ s.dor) :
    s.rxen = true ∧ s.rxFifo.length = Config.rxDepth ∧ s.rxFrame b ok = { s with dor := true } := by
  rcases rxFrame_cases s b ok with ⟨-, he⟩ | hfull | ⟨-, -, he⟩
  · simp [he] at h
  · exact hfull
  · simp [he] at h

/-- What an operation can do to TXC and DOR: nothing, or TXC falls by a write of UCSRA that does nothing else (41_config_registers
R171), or DOR falls by a read of UDR that takes the head of the receive buffer (43_receive R240). -/
theorem effect_txc_dor_cases (i : Instr) (s : State) :
    ((effect i s).txc = s.txc ∧ (effect i s).dor = s.dor) ∨ effect i s = { s with txc := false }.done ∨
      ∃ e rest, s.rxFifo = e :: rest ∧ effect i s = { s with rxFifo := rest, dor := false }.reply e.data := by
  cases i <;> simp only [effect]
  case wrUcsra v =>
    rcases writeUcsra_cases s v with ⟨_, _, he⟩ | he
    · rw [he]; exact .inl ⟨rfl, rfl⟩
    · by_cases h6 : v.getLsbD 6 = true
      · exact .inr (.inl (by rw [he, if_pos h6]))
      · rw [he, if_neg h6]; exact .inl ⟨rfl, rfl⟩
  case rdUdr =>
    rcases readUdr_cases s with ⟨-, he⟩ | hpop
    · rw [he]; exact .inl ⟨rfl, rfl⟩
    · exact .inr (.inr hpop)
  case wrUcsrb v => rcases writeUcsrb_cases s v with ⟨_, _, he⟩ | ⟨he, -⟩ <;> rw [he] <;> exact .inl ⟨rfl, rfl⟩
  case wrUcsrc v => rcases writeUcsrc_cases s v with ⟨_, _, he⟩ | he <;> rw [he] <;> exact .inl ⟨rfl, rfl⟩
  case wrUbrrl v => rcases writeUbrrl_cases s v with ⟨_, _, he⟩ | he <;> rw [he] <;> exact .inl ⟨rfl, rfl⟩
  case wrUbrrh v => rcases writeUbrrh_cases s v with ⟨_, _, he⟩ | he <;> rw [he] <;> exact .inl ⟨rfl, rfl⟩
  case wrUdr v => rcases writeUdr_cases s v with ⟨_, _, he, -⟩ | ⟨he, -⟩ <;> rw [he] <;> exact .inl ⟨rfl, rfl⟩
  all_goals exact .inl ⟨rfl, rfl⟩

/-- An operation that changes TXC clears it, returns nothing, and does nothing else. -/
theorem effect_of_txc_ne {i : Instr} {s : State} (h : (effect i s).txc ≠ s.txc) :
    effect i s = { s with txc := false }.done := by
  rcases effect_txc_dor_cases i s with ⟨htxc, -⟩ | he | ⟨_, _, -, he⟩
  · exact absurd htxc h
  · exact he
  · simp [he] at h

/-- An operation that changes DOR clears it and takes the head of the receive buffer. -/
theorem effect_of_dor_ne {i : Instr} {s : State} (h : (effect i s).dor ≠ s.dor) :
    ∃ e rest, s.rxFifo = e :: rest ∧ effect i s = { s with rxFifo := rest, dor := false }.reply e.data := by
  rcases effect_txc_dor_cases i s with ⟨-, hdor⟩ | he | hpop
  · exact absurd hdor h
  · simp [he] at h
  · exact hpop

/-- A host turn that changes the block does so by the effect of one operation, on a state with the block as it was. -/
theorem hostTurn_block_cases {s s2 t : State} {ts : List HostOp} (hloc : HostLocal s s2)
    (h : t = s2.withTasks ts ∨ MarkedOnly (s2.withTasks ts) t ∨ ∃ i, t = effect i (s2.withTasks ts)) :
    SameBlock s t ∨ ∃ i s3, SameBlock s s3 ∧ t = effect i s3 := by
  have hblock : SameBlock s (s2.withTasks ts) := hloc.sameBlock
  rcases h with rfl | hmark | ⟨i, rfl⟩
  · exact .inl hblock
  · exact .inl (hblock.trans hmark.sameBlock)
  · exact .inr ⟨i, _, hblock, rfl⟩

/-- Settles O38: the shift turn sets TXC, a write of UCSRA on the host's turn clears it, and no other turn changes it. -/
theorem txcChangesOnlyAsNamed : Obligations.TxcChangesOnlyAsNamed := by
  intro s t hstep hne
  obtain ⟨-, a, w, r, d, s1, rfl, hturn⟩ := step_turn hstep
  rcases hturn with ⟨-, rfl⟩ | ⟨hshift, rfl⟩ | ⟨b, ok, -, rfl⟩ | ⟨hhost, s2, ts, hloc, ht⟩
  · simp at hne
  · obtain ⟨b, hen, hsh, hbuf, he⟩ := txShiftOut_of_txc_ne hne
    rw [he]
    exact ⟨fun _ => ⟨hshift, b, hen, hsh, hbuf, rfl, rfl, hbuf⟩, nofun⟩
  · simp at hne
  · rcases hostTurn_block_cases hloc ht with hblock | ⟨i, s3, hblock, rfl⟩
    · obtain ⟨-, -, -, -, htxc, -⟩ := hblock
      exact absurd htxc hne
    · obtain ⟨-, -, hsame, -, htxc, -⟩ := hblock
      rw [effect_of_txc_ne (htxc ▸ hne)]
      exact ⟨nofun, fun _ => ⟨hhost, hsame, rfl⟩⟩

/-- Settles O39: a frame lost on the line's turn sets DOR, a read of UDR on the host's turn clears it, and no other turn changes
it. -/
theorem dorChangesOnlyAsNamed : Obligations.DorChangesOnlyAsNamed := by
  intro s t hstep hne
  obtain ⟨-, a, w, r, d, s1, rfl, hturn⟩ := step_turn hstep
  rcases hturn with ⟨-, rfl⟩ | ⟨-, rfl⟩ | ⟨b, ok, hline, rfl⟩ | ⟨hhost, s2, ts, hloc, ht⟩
  · simp at hne
  · simp at hne
  · obtain ⟨hen, hfull, he⟩ := rxFrame_of_dor_ne hne
    rw [he]
    exact ⟨fun _ => ⟨⟨b, ok, hline⟩, hen, hfull, rfl⟩, nofun⟩
  · rcases hostTurn_block_cases hloc ht with hblock | ⟨i, s3, hblock, rfl⟩
    · obtain ⟨-, -, -, -, -, hdor⟩ := hblock
      exact absurd hdor hne
    · obtain ⟨-, -, -, hfifo, -, hdor⟩ := hblock
      obtain ⟨e, rest, hpop, he⟩ := effect_of_dor_ne (hdor ▸ hne)
      rw [he]
      exact ⟨nofun, fun _ => ⟨hhost, e, hfifo.symm.trans hpop, rfl⟩⟩

/-! ### The transmit path replaced -/

/-- The state with other contents of the transmit path (10_state R45, R46, R48). -/
def State.withTransmit (s : State) (buf shift : Option Byte) (wire : List Byte) : State :=
  { s with txBuf := buf, txShift := shift, txWire := wire }

section
variable {s : State} {buf shift : Option Byte} (wire : List Byte)

@[simp] theorem State.withTransmit_txen : (s.withTransmit buf shift wire).txen = s.txen := rfl
@[simp] theorem State.withTransmit_rxen : (s.withTransmit buf shift wire).rxen = s.rxen := rfl
@[simp] theorem State.withTransmit_rxFifo : (s.withTransmit buf shift wire).rxFifo = s.rxFifo := rfl

/-- UCSRA shows of the transmit path only whether the buffer is full (10_state R34, R41). -/
theorem ucsraValue_withTransmit (hbuf : buf.isSome = s.txBuf.isSome) :
    (s.withTransmit buf shift wire).ucsraValue = s.ucsraValue := by
  have hudre : (s.withTransmit buf shift wire).udre = s.udre := by
    simp [State.udre, State.withTransmit, ← Option.not_isSome, hbuf]
  simp only [State.ucsraValue, hudre]
  rfl

/-- `txBusy` depends only on whether buffer and shift register are full. -/
theorem txBusy_withTransmit (hbuf : buf.isSome = s.txBuf.isSome) (hshift : shift.isSome = s.txShift.isSome) :
    (s.withTransmit buf shift wire).txBusy = s.txBusy := by
  simp [State.txBusy, State.withTransmit, hbuf, hshift]

/-- A write of UDR tests only whether the buffer is full, and then fills the replaced buffer as it fills the first. -/
theorem writeUdr_withTransmit (v : Byte) (hbuf : buf.isSome = s.txBuf.isSome) :
    ∃ buf', buf'.isSome = (s.writeUdr v).txBuf.isSome ∧
      (s.withTransmit buf shift wire).writeUdr v = (s.writeUdr v).withTransmit buf' shift wire := by
  have hfull : buf = none ↔ s.txBuf = none := by simp only [← Option.not_isSome_iff_eq_none, hbuf]
  unfold State.writeUdr
  simp only [State.withTransmit, ne_eq, hfull]
  split_ifs
  · exact ⟨buf, hbuf, rfl⟩
  · exact ⟨some v, rfl, rfl⟩
  · exact ⟨buf, hbuf, rfl⟩

/-- Every operation works on the replaced transmit path as on the first: it leaves the same state, but for the bytes that were
replaced, and the same fullness of the buffer. -/
theorem effect_withTransmit (i : Instr) (hbuf : buf.isSome = s.txBuf.isSome) (hshift : shift.isSome = s.txShift.isSome) :
    ∃ buf', buf'.isSome = (effect i s).txBuf.isSome ∧
      effect i (s.withTransmit buf shift wire) = (effect i s).withTransmit buf' shift wire := by
  have hbusy := txBusy_withTransmit wire hbuf hshift
  cases i <;> simp only [effect]
  case rdUcsra => exact ⟨buf, hbuf, by rw [ucsraValue_withTransmit wire hbuf]; rfl⟩
  case wrUdr v => exact writeUdr_withTransmit wire v hbuf
  case wrUcsra v => unfold State.writeUcsra; split_ifs <;> exact ⟨buf, hbuf, rfl⟩
  case wrUcsrb v =>
    have hrxc : (s.withTransmit buf shift wire).rxc = s.rxc := rfl
    simp only [State.writeUcsrb, hbusy, hrxc, State.withTransmit_txen, State.withTransmit_rxen]
    split_ifs <;> exact ⟨buf, hbuf, rfl⟩
  case wrUcsrc v => unfold State.writeUcsrc; split_ifs <;> exact ⟨buf, hbuf, rfl⟩
  case wrUbrrl v => simp only [State.writeUbrrl, hbusy]; split_ifs <;> exact ⟨buf, hbuf, rfl⟩
  case wrUbrrh v => simp only [State.writeUbrrh, hbusy]; split_ifs <;> exact ⟨buf, hbuf, rfl⟩
  case rdUdr =>
    unfold State.readUdr
    rw [State.withTransmit_rxFifo]
    cases s.rxFifo <;> exact ⟨buf, hbuf, rfl⟩
  all_goals exact ⟨buf, hbuf, rfl⟩
end

/-- Settles O40: the operation's effect on the one state is its effect on the other, with the replaced bytes. -/
theorem transmitBytesAreHidden : Obligations.TransmitBytesAreHidden := by
  intro i s t buf shift wire hbuf hshift hexec
  obtain ⟨hlive, rfl⟩ := exec_next_iff.1 hexec
  obtain ⟨buf', hbuf', he⟩ := effect_withTransmit wire i hbuf hshift
  exact ⟨_, exec_next_iff.2 ⟨hlive, he.symm⟩, rfl, rfl, rfl, hbuf'⟩

/-- Settles O7: each field of the reset state is the one of the reset table, and the three register values are computed. -/
theorem resetLeavesBlock : Obligations.ResetLeavesBlock := by
  unfold Obligations.ResetLeavesBlock
  decide

end Sys2Proof.Machine
end

section
/-!
PROOFS. A host access at a data address (20_memory): one byte in the window is the request of its offset, another width that
touches the window is refused, one byte elsewhere stays inside the host.
-/

namespace Sys2Proof.Machine

/-! ### Address decode -/

theorem windowOffset_of_mem {a : Nat} (hlo : Config.uartBase ≤ a) (hhi : a ≤ Config.uartBase + 6) :
    windowOffset a = some (BitVec.ofNat 3 (a - Config.uartBase)) := if_pos ⟨hlo, hhi⟩

theorem windowOffset_eq_none {a : Nat} (h : a < Config.uartBase ∨ Config.uartBase + 6 < a) : windowOffset a = none :=
  if_neg (by omega)

/-! ### The three kinds of host access -/

section
variable {p : Config.HostParams} {write : Bool} {addr width : Nat} {v : Byte} {rest : List HostOp} {s : State}

/-- One byte at an address of the window is the request word of its offset (20_memory R81). -/
theorem hostMove_access_window {off : BitVec 3} (h : windowOffset addr = some off) :
    hostMove p (.access write addr 1 v) rest s =
      .access (Request.toWord ⟨write, off, if write then v else 0⟩) rest s := by
  simp only [hostMove, hostAccess, if_true, h]

/-- Another width that touches the window is refused (20_memory R85). -/
theorem hostMove_access_wide (hwidth : width ≠ 1) (h : touchesWindow addr width = true) :
    hostMove p (.access write addr width v) rest s = .marked (s.refuse .wideAccess (.wide addr width)) := by
  simp only [hostMove, hostAccess, if_neg hwidth, if_pos h]

/-- One byte outside the window issues no request word and raises no mark. -/
theorem hostMove_access_outside (h : windowOffset addr = none) :
    (∃ s', hostMove p (.access write addr 1 v) rest s = .passed s') ∨
      hostMove p (.access write addr 1 v) rest s = .stuck := by
  simp only [hostMove, hostAccess, if_true, h]
  cases write with
  | true => cases s.storeHost addr v <;> simp
  | false => cases Memory.read s.hostMem addr <;> simp
end

/-! ### What the host's turn makes of a move -/

section
variable {p : Config.HostParams} {op : HostOp} {rest : List HostOp} {s s' : State}

/-- An access issued is performed, the host standing behind it. -/
theorem runHost_of_access {w : ReqWord} {after : List HostOp} (h : hostMove p op rest s = .access w after s') :
    runHost p (op :: rest) s = perform w (s'.withTasks after) := by
  simp only [runHost, h]

/-- A mark of the host's own ends the turn, the host standing at the operation that raised it. -/
theorem runHost_of_marked (h : hostMove p op rest s = .marked s') :
    runHost p (op :: rest) s = .next (s'.withTasks (op :: rest)) := by
  simp only [runHost, h]
end

/-- Host-local computation leaves both marks as they are. -/
theorem HostLocal.sameMarks {s t : State} (h : HostLocal s t) : SameMarks s t := by
  obtain ⟨⟨_, _, _, rfl⟩, -⟩ := h
  exact ⟨rfl, rfl⟩

/-- An operation that passes leaves the block and both marks as they are. -/
theorem sameBlock_sameMarks_of_passed {p : Config.HostParams} {op : HostOp} {rest : List HostOp} {s s' : State}
    (h : hostMove p op rest s = .passed s') : SameBlock s s' ∧ SameMarks s s' := by
  have hsound := hostMove_sound p op rest s
  rw [h] at hsound
  exact ⟨HostLocal.sameBlock hsound, HostLocal.sameMarks hsound⟩

/-- Settles O52: each kind of access is one move of the host, and the turn carries that move out. -/
theorem addressDecodeAndWidth : Obligations.AddressDecodeAndWidth := by
  intro s write addr width v ops ts hlive hagenda htasks
  have hstep := htasks ▸ step_of_host hlive hagenda
  refine ⟨?wide, ?window, ?outside⟩
  case wide =>
    intro hwidth hhi hlo
    have htouch : touchesWindow addr width = true := decide_eq_true ⟨hhi, hlo⟩
    rw [hstep, runHost_of_marked (hostMove_access_wide hwidth htouch), ← htasks]
    rfl
  case window =>
    rintro rfl hlo hhi
    rw [hstep, runHost_of_access (hostMove_access_window (windowOffset_of_mem hlo hhi))]
    rfl
  case outside =>
    rintro rfl hout p
    rcases hostMove_access_outside (windowOffset_eq_none hout) with ⟨s', hpassed⟩ | hstuck
    · exact .inl ⟨s', hpassed, sameBlock_sameMarks_of_passed hpassed⟩
    · exact .inr hstuck

end Sys2Proof.Machine
end

section
/-!
PROOFS. Request words and operations (30_encoding R110 to R116): the decoder and the encoder undo each other, and every row of the
opcode map.
-/

namespace Sys2Proof

/-! ### Operations as accesses to registers -/

/-- Every operation is the read of a register or a write to one (30_encoding R113). -/
theorem Instr.eq_readOf_or_writeOf (i : Instr) : (∃ r, i = readOf r) ∨ ∃ r v, i = writeOf r v := by
  cases i with
  | rdUcsra => exact .inl ⟨.ucsra, rfl⟩
  | rdUcsrb => exact .inl ⟨.ucsrb, rfl⟩
  | rdUcsrc => exact .inl ⟨.ucsrc, rfl⟩
  | rdUbrrl => exact .inl ⟨.ubrrl, rfl⟩
  | rdUbrrh => exact .inl ⟨.ubrrh, rfl⟩
  | rdUdr => exact .inl ⟨.udr, rfl⟩
  | wrUcsra v => exact .inr ⟨.ucsra, v, rfl⟩
  | wrUcsrb v => exact .inr ⟨.ucsrb, v, rfl⟩
  | wrUcsrc v => exact .inr ⟨.ucsrc, v, rfl⟩
  | wrUbrrl v => exact .inr ⟨.ubrrl, v, rfl⟩
  | wrUbrrh v => exact .inr ⟨.ubrrh, v, rfl⟩
  | wrUdr v => exact .inr ⟨.udr, v, rfl⟩

/-- The offsets without a register are 3 and 7 (10_state R33). -/
theorem regOf_eq_none_iff {off : BitVec 3} : regOf off = none ↔ off = 3 ∨ off = 7 := by
  revert off
  decide

/-- An offset with a register is that register's offset. -/
theorem offset_of_regOf {off : BitVec 3} {reg : Reg} (h : regOf off = some reg) : reg.offset = off := by
  revert off
  cases reg <;> decide

/-! ### The decoder on fields -/

/-- The decoder undoes the request fields of every operation. -/
theorem decodeRequest_request (i : Instr) : decodeRequest i.request = .op i := by
  rcases i.eq_readOf_or_writeOf with ⟨r, rfl⟩ | ⟨r, v, rfl⟩
  · simp [readOf_request, decodeRequest]
  · simp [writeOf_request, decodeRequest]

/-- The decoder on every request, in its order: the offset, a read's data, then the operation of these very fields
(30_encoding R114). -/
theorem decodeRequest_cases (r : Request) :
    if r.offset = 3 ∨ r.offset = 7 then decodeRequest r = .reserved .reservedOffset
    else if r.write = false ∧ r.data ≠ 0 then decodeRequest r = .reserved .reservedReadData
    else ∃ i, decodeRequest r = .op i ∧ i.request = r := by
  obtain ⟨write, off, data⟩ := r
  cases hreg : regOf off with
  | none =>
    rw [if_pos (regOf_eq_none_iff.1 hreg)]
    simp only [decodeRequest, hreg]
  | some reg =>
    have hoff : ¬ (off = 3 ∨ off = 7) := by
      rw [← regOf_eq_none_iff, hreg]
      exact Option.some_ne_none reg
    rw [if_neg hoff]
    obtain rfl := offset_of_regOf hreg
    split_ifs with hdata
    · simp only [decodeRequest, hreg, if_pos hdata]
    · cases write with
      | true => exact ⟨_, by simp [decodeRequest], writeOf_request reg data⟩
      | false =>
        obtain rfl : data = 0 := by simpa using hdata
        exact ⟨_, by simp [decodeRequest], readOf_request reg⟩

/-- A request decodes to an operation exactly when it has the operation's fields. -/
theorem decodeRequest_eq_op_iff {r : Request} {i : Instr} : decodeRequest r = .op i ↔ r = i.request := by
  refine ⟨fun h => ?_, fun h => h ▸ decodeRequest_request i⟩
  have hcases := decodeRequest_cases r
  rw [h] at hcases
  split_ifs at hcases
  obtain ⟨j, hj, hr⟩ := hcases
  cases hj
  exact hr.symm

/-! ### The decoder on words -/

/-- A word has the fields `r` exactly when it is made from them. -/
theorem Request.ofWord_eq_iff {w : ReqWord} {r : Request} : Request.ofWord w = r ↔ w = r.toWord := by
  constructor
  · rintro rfl; simp
  · rintro rfl; simp

/-- A word decodes to an operation exactly when it is the operation's request word. -/
theorem decode_eq_op_iff {w : ReqWord} {i : Instr} : decode w = .op i ↔ w = encode i :=
  decodeRequest_eq_op_iff.trans Request.ofWord_eq_iff

/-- Settles O2: the request word of an operation is the word that decodes to it. -/
theorem decodeOfEncodeIsOperation : Obligations.DecodeOfEncodeIsOperation :=
  fun _ => decode_eq_op_iff.2 rfl

/-- Settles O3: only the operation's request word decodes to it. -/
theorem decodedWordIsItsEncoding : Obligations.DecodedWordIsItsEncoding :=
  fun _ _ h => (decode_eq_op_iff.1 h).symm

/-- Settles O4: the decoder's cases at the fields of the word. -/
theorem decoderReservations : Obligations.DecoderReservations :=
  fun w => decodeRequest_cases (Request.ofWord w)

/-! ### The rows of the opcode map -/

/-- The mask 0xF00 keeps W and A and clears D (30_encoding R110). -/
theorem Request.toWord_and_mask (r : Request) : r.toWord &&& 0xF00 = Request.toWord ⟨r.write, r.offset, 0⟩ := by
  have hmask : (0xF00 : ReqWord) = BitVec.allOnes 1 ++ BitVec.allOnes 3 ++ 0#8 := by decide
  rw [hmask]
  -- by `trans` and not by `rw`: the word's 12 bits are 1 + 3 + 8 by computation only
  refine BitVec.and_append.trans ?_
  rw [BitVec.and_append, BitVec.and_allOnes, BitVec.and_allOnes, BitVec.and_zero]
  rfl

/-- The request word of a write is its match word with the data byte in bits 7:0 (30_encoding R113). -/
theorem encode_writeOf (r : Reg) (v : Byte) : encode (writeOf r v) = encode (writeOf r 0) ||| v.setWidth 12 := by
  have hv : v.setWidth 12 = 0#1 ++ 0#3 ++ v := (BitVec.setWidth_eq_append (by decide)).trans rfl
  rw [encode, encode, writeOf_request, writeOf_request, hv]
  refine (BitVec.or_append.trans ?_).symm
  rw [BitVec.or_append, BitVec.or_zero, BitVec.or_zero]
  exact congrArg _ BitVec.zero_or

/-- A word decodes to a read exactly when it agrees with the read's match word in all twelve bits (30_encoding R113). -/
theorem decode_eq_readOf_iff (r : Reg) (w : ReqWord) : decode w = .op (readOf r) ↔ w &&& 0xFFF = encode (readOf r) := by
  have hmask : w &&& 0xFFF = w := BitVec.and_allOnes
  rw [decode_eq_op_iff, hmask]

/-- A word decodes to a write exactly when it agrees with the write's match word under the mask 0xF00 (30_encoding R113). -/
theorem exists_decode_eq_writeOf_iff (r : Reg) (w : ReqWord) :
    (∃ v, decode w = .op (writeOf r v)) ↔ w &&& 0xF00 = encode (writeOf r 0) := by
  obtain ⟨q, rfl⟩ : ∃ q : Request, w = q.toWord := ⟨_, (Request.toWord_ofWord w).symm⟩
  obtain ⟨write, off, data⟩ := q
  rw [Request.toWord_and_mask]
  simp [decode_eq_op_iff, encode, writeOf_request, ← Request.ofWord_eq_iff]

/-- Settles O1: each row is the row of its register, and the twelve match words are computed. -/
theorem encodeIsOpcodeMap : Obligations.EncodeIsOpcodeMap := by
  refine ⟨by decide, fun v => ?_, fun w => ?_⟩
  · exact ⟨encode_writeOf .ucsra v, encode_writeOf .ucsrb v, encode_writeOf .ucsrc v, encode_writeOf .ubrrl v,
      encode_writeOf .ubrrh v, encode_writeOf .udr v⟩
  · exact ⟨decode_eq_readOf_iff .ucsra w, exists_decode_eq_writeOf_iff .ucsra w,
      decode_eq_readOf_iff .ucsrb w, exists_decode_eq_writeOf_iff .ucsrb w,
      decode_eq_readOf_iff .ucsrc w, exists_decode_eq_writeOf_iff .ucsrc w,
      decode_eq_readOf_iff .ubrrl w, exists_decode_eq_writeOf_iff .ubrrl w,
      decode_eq_readOf_iff .ubrrh w, exists_decode_eq_writeOf_iff .ubrrh w,
      decode_eq_readOf_iff .udr w, exists_decode_eq_writeOf_iff .udr w⟩

end Sys2Proof
end

section
/-!
PROOFS. Operations in the host's hands: assembler text (30_encoding R117), the divisor writes of SETBAUD (R118), and the step
that performs a request word (60_exceptions R337).
-/

namespace Sys2Proof.Machine

/-! ### Assembler text -/

/-- A register's name reads back. -/
@[simp] theorem parseReg_regText (r : Reg) : parseReg (regText r) = some r := by
  cases r <;> decide

theorem comma_notMem_regText (r : Reg) : ',' ∉ regText r := by
  cases r <;> decide

/-- The operands of a write are cut at the first comma. -/
theorem parseWrite_append {reg : Text} (h : ',' ∉ reg) (before imm : Text) :
    parseWrite before (reg ++ ',' :: ' ' :: imm) =
      (parseReg (before ++ reg)).bind fun r => (parseImm imm).map (writeOf r) := by
  induction reg generalizing before with
  | nil => simp [parseWrite]
  | cons c cs ih =>
    obtain ⟨hc, hcs⟩ := List.ne_and_not_mem_of_not_mem_cons h
    rw [List.cons_append, parseWrite, if_neg (Ne.symm hc), ih hcs, List.append_assoc, List.singleton_append]

theorem parseInstr_readText (r : Reg) : parseInstr (readText r) = some (readOf r) := by
  simp [readText, parseInstr]

theorem parseInstr_writeText (r : Reg) (v : Byte) : parseInstr (writeText r v) = some (writeOf r v) := by
  have hops : parseInstr (writeText r v) = parseWrite [] (regText r ++ ',' :: ' ' :: byteText v) := by
    simp [writeText, parseInstr]
  rw [hops, parseWrite_append (comma_notMem_regText r)]
  simp

theorem instrText_readOf (r : Reg) : instrText (readOf r) = readText r := by cases r <;> rfl

theorem instrText_writeOf (r : Reg) (v : Byte) : instrText (writeOf r v) = writeText r v := by cases r <;> rfl

/-- Settles O6: the text of a read and the text of a write each read back. -/
theorem assemblerRoundTrip : Obligations.AssemblerRoundTrip := by
  intro i
  rcases i.eq_readOf_or_writeOf with ⟨r, rfl⟩ | ⟨r, v, rfl⟩
  · rw [instrText_readOf, parseInstr_readText]
  · rw [instrText_writeOf, parseInstr_writeText]

/-! ### The step of a request word -/

/-- A word that decodes to an operation is performed as that operation. -/
theorem perform_of_decode {w : ReqWord} {i : Instr} (h : decode w = .op i) (s : State) : perform w s = exec i s := by
  simp only [perform, h]

/-- An operation tests the marks itself, so a test of the same marks before it changes nothing. -/
theorem whenLive_exec {s t : State} (h : SameMarks s t) (i : Instr) : whenLive s (exec i t) = exec i t := by
  obtain ⟨hfault, hrefused⟩ := h
  rw [exec_eq_effect]
  simp only [whenLive, hfault, hrefused]
  split
  · rfl
  · split <;> rfl

/-- Settles O8: the host's turn performs the request word, and the operation's own test of the marks is the step's. -/
theorem stepRunsDecodedInstruction : Obligations.StepRunsDecodedInstruction := by
  intro s w i ops ts hagenda htasks hdecode
  have hturn : takeTurn .host { s with agenda := ts } = exec i { s with agenda := ts, tasks := ops } := by
    simp only [takeTurn, hostTurn, htasks]
    rw [runHost_of_access rfl, perform_of_decode hdecode]
    rfl
  have hmarks : SameMarks s { s with agenda := ts, tasks := ops } := ⟨rfl, rfl⟩
  rw [step_of_agenda hagenda, hturn, whenLive_exec hmarks]

/-! ### SETBAUD -/

/-- Settles O48: the two accesses of SETBAUD are the request words of writes to UBRRH and UBRRL. -/
theorem setBaudWritesDivisor : Obligations.SetBaudWritesDivisor := by
  intro p baud clk rest s d
  have hhigh : encode (.wrUbrrh (d.extractLsb' 8 8)) = 0xD00 ||| (d.extractLsb' 8 8).setWidth 12 := encode_writeOf .ubrrh _
  have hlow : encode (.wrUbrrl (d.extractLsb' 0 8)) = 0xC00 ||| (d.extractLsb' 0 8).setWidth 12 := encode_writeOf .ubrrl _
  rw [← hhigh, ← hlow]
  rfl

end Sys2Proof.Machine
end

section
/-!
PROOFS. The baud-rate divisor compute unit (40_baud_divisor): its output is the exact truncated quotient, its validity is conditions
(a) to (d), and `initialize` faults on an invalid pair.
-/

namespace Sys2Proof.Machine

/-! ### The exact formula -/

section
variable {baud clk : ArithWord}

/-- The exact quotient fits 32 bits: the numerator has at most 33 bits and the denominator is at least 2. -/
theorem divisorQuotient_lt (hbaud : 1 ≤ baud.toNat) : divisorQuotient baud clk < 2 ^ 32 := by
  have hden : 2 ≤ divisorDen baud := by unfold divisorDen; omega
  have hnum : divisorNum baud clk < 2 * 2 ^ 32 := by unfold divisorNum; omega
  exact Nat.div_lt_of_lt_mul (hnum.trans_le (Nat.mul_le_mul_right _ hden))

/-- For `baud >= 1` the unit's `div` is the exact truncated quotient (40_baud_divisor R141, R145). -/
theorem toNat_divisorDiv (hbaud : 1 ≤ baud.toNat) : (divisorDiv baud clk).toNat = divisorQuotient baud clk := by
  have hne : baud ≠ 0 := by rintro rfl; exact absurd hbaud (by decide)
  rw [divisorDiv, if_neg hne, BitVec.toNat_ofNat, Nat.mod_eq_of_lt (divisorQuotient_lt hbaud)]

/-! ### Validity -/

/-- The validity predicate is the conjunction of (a) to (d) (40_baud_divisor R142). -/
theorem divisorValid_iff :
    divisorValid baud clk = true ↔
      1 ≤ baud.toNat ∧ baud.toNat < clk.toNat ∧ divisorNum baud clk ≤ 2 ^ 32 - 1 ∧ divisorDen baud ≤ 2 ^ 32 - 1 ∧
        1 ≤ divisorQuotient baud clk ∧ divisorQuotient baud clk ≤ 4095 := by
  simp only [divisorValid, Bool.and_eq_true, decide_eq_true_iff, and_assoc]
  rfl

/-- A quotient of at least 1 bounds the denominator by the numerator: the second half of (c) (40_baud_divisor R142). -/
theorem divisorDen_le_divisorNum (h : 1 ≤ divisorQuotient baud clk) : divisorDen baud ≤ divisorNum baud clk :=
  (Nat.div_ne_zero_iff.1 (Nat.one_le_iff_ne_zero.1 h)).2

/-! ### 32-bit evaluation -/

/-- Under the first half of (c) the 32-bit numerator is exact. -/
theorem toNat_num32 (hnum : divisorNum baud clk ≤ 2 ^ 32 - 1) : (clk + baud).toNat = divisorNum baud clk :=
  BitVec.toNat_add_of_lt (Nat.lt_of_le_pred (by decide) hnum)

/-- Under (a) and the second half of (c) the 32-bit denominator is exact, also where `baud * 16` is 2^32 and wraps to 0. -/
theorem toNat_den32 (hbaud : 1 ≤ baud.toNat) (hden : divisorDen baud ≤ 2 ^ 32 - 1) :
    (baud * 16 - 1).toNat = divisorDen baud := by
  unfold divisorDen at *
  bv_omega

/-! ### An invalid pair -/

/-- `initialize` with an invalid pair ends in the fault, with no access issued (40_baud_divisor R144). -/
theorem hostMove_initUart_invalid {p : Config.HostParams} {rest : List HostOp} {s : State}
    (h : divisorValid baud clk = false) :
    hostMove p (.initUart baud clk) rest s = .marked (s.raiseFault .baudConfigInvalid (.baudClk baud clk)) := by
  have hvalid : (baudDivisor baud clk).valid = false := h
  simp only [hostMove, initSequence, hvalid, Bool.false_eq_true, if_false]
end

/-! ### The statements -/

/-- Settles O44: numerator and denominator are exact in 32 bits, and so is their quotient. -/
theorem divisorValidity : Obligations.DivisorValidity := by
  intro baud clk quotient
  refine ⟨divisorValid_iff, fun hnum hquot => (divisorDen_le_divisorNum hquot).trans hnum, fun hbaud _ hnum hden => ?_⟩
  rw [BitVec.toNat_udiv, toNat_num32 hnum, toNat_den32 hbaud hden]
  rfl

/-- Settles O43: the quotient fits the output, and the other three outputs are defined as stated. -/
theorem divisorIsTheFormula : Obligations.DivisorIsTheFormula :=
  fun _ _ hbaud => ⟨toNat_divisorDiv hbaud, rfl, rfl, rfl⟩

/-- Settles O49: the host's move is the fault, and the host stays at the sequence. -/
theorem invalidBaudFaults : Obligations.InvalidBaudFaults := by
  intro s baud clk ops ts hlive hinvalid htasks hagenda
  have hstep := htasks ▸ step_of_host hlive hagenda
  rw [hstep, runHost_of_marked (hostMove_initUart_invalid hinvalid), ← htasks]
  rfl

end Sys2Proof.Machine
end

section
/-!
PROOFS. The accesses to the configuration registers (41_config_registers R170 to R195): what each read returns, under which
conditions each write completes or is refused, and what they and `WR UDR` leave unchanged.
-/

namespace Sys2Proof.Machine

/-! ### An operation in a live state -/

/-- In a live state an operation completes with its effect. -/
theorem exec_of_effect {i : Instr} {s t : State} (hlive : s.live) (h : effect i s = t) : exec i s = .next t :=
  exec_next_iff.2 ⟨hlive, h.symm⟩

/-- A reserved word is refused under its reservation, the word recorded (41_config_registers R190). -/
theorem perform_of_reserved {w : ReqWord} {r : Reserved} {s : State} (hlive : s.live) (h : decode w = .reserved r) :
    perform w s = .next (s.refuse (reservedReason r) (.word w)) := by
  simp only [perform, h, whenLive_of_live hlive]

/-- Settles O9: the decoder's three cases, each performed. -/
theorem reservedRequestIsRefused : Obligations.ReservedRequestIsRefused := by
  intro s w hlive
  have hdecode := decoderReservations w
  split_ifs at hdecode ⊢
  · exact perform_of_reserved hlive hdecode
  · exact perform_of_reserved hlive hdecode
  · obtain ⟨i, hi, -⟩ := hdecode
    exact ⟨i, hi, perform_of_decode hi s⟩

/-! ### The reads -/

theorem rxc_eq_decide (s : State) : s.rxc = decide (s.rxFifo ≠ []) := by
  rw [Bool.eq_iff_iff, decide_eq_true_iff, rxc_iff]

theorem udre_eq_decide (s : State) : s.udre = decide (s.txBuf = none) := by
  rw [Bool.eq_iff_iff, decide_eq_true_iff, udre_iff]

/-- FE is the frame-error bit of the head of the receive buffer, 0 when there is none (10_state R42). -/
theorem fe_eq_head (s : State) : s.fe = (s.rxFifo.head?.map (·.fe)).getD false := by
  unfold State.fe
  cases s.rxFifo <;> rfl

/-- Settles O12: the value read is the packed flags, and the three derived ones are as stated. -/
theorem rdUcsraReturnsStatus : Obligations.RdUcsraReturnsStatus := by
  refine ⟨by decide, fun s hlive => ⟨s.ucsraValue, exec_of_effect hlive rfl, ?_⟩⟩
  rw [← rxc_eq_decide, ← udre_eq_decide, ← fe_eq_head]
  exact packBits_getLsbD ..

/-- Settles O14: the value read is the packed control bits. -/
theorem rdUcsrbReturnsControl : Obligations.RdUcsrbReturnsControl :=
  ⟨by decide, fun s hlive => ⟨s.ucsrbValue, exec_of_effect hlive rfl, packBits_getLsbD ..⟩⟩

/-- Settles O16: both reads return the stored byte by definition. -/
theorem rdUcsrcAndUbrrlReturnStored : Obligations.RdUcsrcAndUbrrlReturnStored :=
  ⟨by decide, by decide, fun _ hlive => ⟨exec_of_effect hlive rfl, exec_of_effect hlive rfl⟩⟩

/-- Zeros in bits 7:4 leave the divisor bits 11:8 their value. -/
theorem toNat_ubrrhValue (s : State) : s.ubrrhValue.toNat = s.ubrrh.toNat := by
  have happend : s.ubrrhValue.toNat = (0 : BitVec 4).toNat <<< 4 ||| s.ubrrh.toNat := BitVec.toNat_append _ _
  simpa using happend

/-- Settles O18: the value read is the stored field below four zeros. -/
theorem rdUbrrhReturnsHighDivisor : Obligations.RdUbrrhReturnsHighDivisor :=
  ⟨by decide, fun s hlive => ⟨s.ubrrhValue, exec_of_effect hlive rfl, toNat_ubrrhValue s⟩⟩

/-! ### The conditions of the writes -/

/-- No bit of a field that is zero is set. -/
theorem not_getLsbD_of_field_zero {w start len i : Nat} {v : BitVec w} (h : v.extractLsb' start len = 0) (hlo : start ≤ i)
    (hhi : i < start + len) : ¬ v.getLsbD i = true := by
  have hbit : (v.extractLsb' start len).getLsbD (i - start) = v.getLsbD i := by
    rw [BitVec.getLsbD_extractLsb', decide_eq_true (by omega), Bool.true_and, Nat.add_sub_cancel' hlo]
  rw [← hbit, h]
  exact ne_true_of_eq_false BitVec.getLsbD_zero

theorem writesErrorFlag_iff {v : Byte} :
    writesErrorFlag v = true ↔ v.getLsbD 4 = true ∨ v.getLsbD 3 = true ∨ v.getLsbD 2 = true := by
  simp only [writesErrorFlag, Bool.or_eq_true, or_assoc]

/-- No error flag is written where a field that covers bits 4:2 is zero (41_config_registers R171). -/
theorem not_writesErrorFlag {start len : Nat} {v : Byte} (h : v.extractLsb' start len = 0) (hlo : start ≤ 2)
    (hhi : 4 < start + len) : ¬ writesErrorFlag v = true := by
  rw [writesErrorFlag_iff, not_or, not_or]
  refine ⟨?_, ?_, ?_⟩ <;> exact not_getLsbD_of_field_zero h (by omega) (by omega)

/-- A write to UCSRB turns off a busy transmitter (41_config_registers R183) unless it keeps TXEN, or TXEN is 0, or buffer and
shift register are empty. -/
theorem disablesBusyTx_iff (s : State) (v : Byte) :
    (s.txen && !v.getLsbD 3 && s.txBusy) = true ↔
      ¬ (v.getLsbD 3 = true ∨ s.txen = false ∨ (s.txBuf = none ∧ s.txShift = none)) := by
  rw [← not_txBusy_iff]
  cases s.txen <;> cases v.getLsbD 3 <;> simp

/-- A write to UCSRB turns off a receiver that holds data (41_config_registers R184) unless it keeps RXEN, or RXEN is 0, or the
receive buffer is empty. -/
theorem disablesFullRx_iff (s : State) (v : Byte) :
    (s.rxen && !v.getLsbD 4 && s.rxc) = true ↔ ¬ (v.getLsbD 4 = true ∨ s.rxen = false ∨ s.rxFifo = []) := by
  rw [Bool.and_eq_true, rxc_iff]
  cases s.rxen <;> cases v.getLsbD 4 <;> simp

/-! ### The writes -/

/-- Settles O13: the three refusals of the write in their order, and the write itself behind them. -/
theorem wrUcsraClearsTxcOrRefuses : Obligations.WrUcsraClearsTxcOrRefuses := by
  intro s v hlive
  have hword : encode (.wrUcsra v) = 0x800 ||| v.setWidth 12 := encode_writeOf .ucsra v
  rw [← hword]
  refine ⟨rfl, fun hzero => exec_of_effect hlive ?completes, fun hflag => exec_of_effect hlive ?errorFlag,
    fun hfree hu2x => exec_of_effect hlive ?doubleSpeed, fun hfree hmpcm => exec_of_effect hlive ?multiProcessor⟩
  case completes =>
    have hflag := not_writesErrorFlag hzero (by decide) (by decide)
    have hu2x := not_getLsbD_of_field_zero (i := 1) hzero (by decide) (by decide)
    have hmpcm := not_getLsbD_of_field_zero (i := 0) hzero (by decide) (by decide)
    exact Eq.trans (if_neg hflag) (Eq.trans (if_neg hu2x) (if_neg hmpcm))
  case errorFlag => exact if_pos (writesErrorFlag_iff.2 hflag)
  case doubleSpeed => exact Eq.trans (if_neg (not_writesErrorFlag hfree (by decide) (by decide))) (if_pos hu2x)
  case multiProcessor =>
    have hflag := not_writesErrorFlag hfree (by decide) (by decide)
    have hu2x := not_getLsbD_of_field_zero (i := 1) hfree (by decide) (by decide)
    exact Eq.trans (if_neg hflag) (Eq.trans (if_neg hu2x) (if_pos hmpcm))

/-- Settles O15: the four refusals of the write in their order, and the write itself behind them. -/
theorem wrUcsrbWritesEnablesOrRefuses : Obligations.WrUcsrbWritesEnablesOrRefuses := by
  intro s v hlive keepsTx keepsRx
  have hword : encode (.wrUcsrb v) = 0x900 ||| v.setWidth 12 := encode_writeOf .ucsrb v
  have hrefusesTx : (s.txen && !v.getLsbD 3 && s.txBusy) = true ↔ ¬ keepsTx := disablesBusyTx_iff s v
  have hrefusesRx : (s.rxen && !v.getLsbD 4 && s.rxc) = true ↔ ¬ keepsRx := disablesFullRx_iff s v
  rw [← hword]
  refine ⟨rfl, fun hint hsz htx hrx => exec_of_effect hlive ?completes, fun hint => exec_of_effect hlive (if_pos hint),
    fun hint hsz => exec_of_effect hlive ?frame, fun hint hsz htx => exec_of_effect hlive ?txBusy,
    fun hint hsz htx hrx => exec_of_effect hlive ?rxNonEmpty⟩
  case completes =>
    have htx' := hrefusesTx.not.2 (not_not.2 htx)
    have hrx' := hrefusesRx.not.2 (not_not.2 hrx)
    exact Eq.trans (if_neg (not_not.2 hint)) (Eq.trans (if_neg (ne_true_of_eq_false hsz))
      (Eq.trans (if_neg htx') (if_neg hrx')))
  case frame => exact Eq.trans (if_neg (not_not.2 hint)) (if_pos hsz)
  case txBusy =>
    exact Eq.trans (if_neg (not_not.2 hint)) (Eq.trans (if_neg (ne_true_of_eq_false hsz)) (if_pos (hrefusesTx.2 htx)))
  case rxNonEmpty =>
    have htx' := hrefusesTx.not.2 (not_not.2 htx)
    exact Eq.trans (if_neg (not_not.2 hint)) (Eq.trans (if_neg (ne_true_of_eq_false hsz))
      (Eq.trans (if_neg htx') (if_pos (hrefusesRx.2 hrx))))

/-- Settles O17: the write tests for the one admitted value. -/
theorem wrUcsrcAdmitsOnly8N1 : Obligations.WrUcsrcAdmitsOnly8N1 := by
  intro s v hlive
  have hword : encode (.wrUcsrc v) = 0xA00 ||| v.setWidth 12 := encode_writeOf .ucsrc v
  rw [← hword]
  exact ⟨rfl, exec_of_effect hlive rfl, fun hv => exec_of_effect hlive (if_pos hv)⟩

/-- Settles O19: the write tests for a busy transmitter. -/
theorem wrUbrrlWritesLowDivisor : Obligations.WrUbrrlWritesLowDivisor := by
  intro s v hlive
  have hword : encode (.wrUbrrl v) = 0xC00 ||| v.setWidth 12 := encode_writeOf .ubrrl v
  rw [← hword]
  refine ⟨rfl, fun hbuf hshift => exec_of_effect hlive (if_neg ?_), fun hbusy => exec_of_effect hlive (if_pos ?_)⟩
  · exact ne_true_of_eq_false ((not_txBusy_iff s).2 ⟨hbuf, hshift⟩)
  · exact (txBusy_iff s).2 hbusy

/-- Settles O20: the two refusals of the write in their order, and the write itself behind them. -/
theorem wrUbrrhWritesHighDivisor : Obligations.WrUbrrhWritesHighDivisor := by
  intro s v hlive
  have hword : encode (.wrUbrrh v) = 0xD00 ||| v.setWidth 12 := encode_writeOf .ubrrh v
  rw [← hword]
  refine ⟨rfl, fun hfield hbuf hshift => exec_of_effect hlive ?completes,
    fun hfield => exec_of_effect hlive (if_pos hfield), fun hfield hbusy => exec_of_effect hlive ?busy⟩
  case completes =>
    have hidle := (not_txBusy_iff s).2 ⟨hbuf, hshift⟩
    exact Eq.trans (if_neg (not_not.2 hfield)) (if_neg (ne_true_of_eq_false hidle))
  case busy => exact Eq.trans (if_neg (not_not.2 hfield)) (if_pos ((txBusy_iff s).2 hbusy))

/-! ### Frames -/

/-- The five register reads do nothing but return a byte. -/
theorem effect_registerRead {i : Instr} (h : i = .rdUcsra ∨ i = .rdUcsrb ∨ i = .rdUcsrc ∨ i = .rdUbrrl ∨ i = .rdUbrrh)
    (s : State) : ∃ v, effect i s = s.reply v := by
  rcases h with rfl | rfl | rfl | rfl | rfl <;> exact ⟨_, rfl⟩

/-- Settles O24: returning a byte leaves every other field. -/
theorem registerReadFrame : Obligations.RegisterReadFrame := by
  intro i s t hi hexec
  obtain ⟨-, rfl⟩ := exec_next_iff.1 hexec
  obtain ⟨v, he⟩ := effect_registerRead hi s
  rw [he]
  simp [SameBlock, SameControl, SameDivisor, SameTransmit, SameMarks, SameMemory, SameOrder]

/-- Settles O26: each of the three writes is refused or writes its own bits. -/
theorem controlWriteFrame : Obligations.ControlWriteFrame := by
  intro i s t v hi hexec
  obtain ⟨-, rfl⟩ := exec_next_iff.1 hexec
  rcases hi with rfl | rfl | rfl
  · rcases writeUcsra_cases s v with ⟨r, info, he⟩ | he <;>
      simp [effect, he, SameDivisor, SameTransmit, SameMemory, SameOrder]
  · rcases writeUcsrb_cases s v with ⟨r, info, he⟩ | ⟨he, -⟩ <;>
      simp [effect, he, SameDivisor, SameTransmit, SameMemory, SameOrder]
  · rcases writeUcsrc_cases s v with ⟨r, info, he⟩ | he <;>
      simp [effect, he, SameDivisor, SameTransmit, SameMemory, SameOrder]

/-- Settles O27: each of the three writes is marked or writes its own register. -/
theorem dataWriteFrame : Obligations.DataWriteFrame := by
  intro i s t v hi hexec
  obtain ⟨-, rfl⟩ := exec_next_iff.1 hexec
  rcases hi with rfl | rfl | rfl
  · rcases writeUbrrl_cases s v with ⟨r, info, he⟩ | he <;> simp [effect, he, SameControl, SameMemory, SameOrder]
  · rcases writeUbrrh_cases s v with ⟨r, info, he⟩ | he <;> simp [effect, he, SameControl, SameMemory, SameOrder]
  · rcases writeUdr_cases s v with ⟨r, info, he, -⟩ | ⟨he, -⟩ <;> simp [effect, he, SameControl, SameMemory, SameOrder]

end Sys2Proof.Machine
end

section
/-!
PROOFS. The transmit path (42_transmit R210 to R223): the write of UDR, the transmitter's two turns, the order in which bytes go
through, and the progress of a byte in the data buffer.
-/

namespace Sys2Proof.Machine

/-! ### The write of UDR -/

/-- Settles O21: the two faults of the write in their order, and the write itself behind them. -/
theorem wrUdrFillsBufferOrFaults : Obligations.WrUdrFillsBufferOrFaults := by
  intro s v hlive
  have hword : encode (.wrUdr v) = 0xE00 ||| v.setWidth 12 := encode_writeOf .udr v
  have henabled (hen : s.txen = true) : ¬ (!s.txen) = true := by simp [hen]
  rw [← hword]
  refine ⟨rfl, fun hen hbuf => exec_of_effect hlive ?completes, fun hen => exec_of_effect hlive ?disabled,
    fun hen hfull => exec_of_effect hlive ?overrun⟩
  case completes => exact Eq.trans (if_neg (henabled hen)) (if_neg (not_not.2 hbuf))
  case disabled => exact if_pos (by simp [hen])
  case overrun => exact Eq.trans (if_neg (henabled hen)) (if_pos hfull)

/-! ### The transmitter's turns -/

section
variable {s : State}

/-- A load that is enabled moves the byte (42_transmit R220). -/
theorem txLoad_of_enabled {b : Byte} (hen : s.txen = true) (hshift : s.txShift = none) (hbuf : s.txBuf = some b) :
    s.txLoad = { s with txShift := some b, txBuf := none } := by
  simp only [State.txLoad, hen, hshift, hbuf]

/-- A load that is not enabled changes nothing. -/
theorem txLoad_of_not_enabled (h : s.txen = false ∨ s.txShift ≠ none ∨ s.txBuf = none) : s.txLoad = s := by
  rcases txLoad_cases s with ⟨b, hen, hshift, hbuf, -⟩ | ⟨he, -⟩
  · simp [hen, hshift, hbuf] at h
  · exact he

/-- A shift that is enabled sends the byte, and sets TXC on an empty buffer (42_transmit R221, R222). -/
theorem txShiftOut_of_enabled {b : Byte} (hen : s.txen = true) (hshift : s.txShift = some b) :
    s.txShiftOut =
      { s with txWire := s.txWire ++ [b], txShift := none, txc := s.txc || decide (s.txBuf = none) } := by
  have htxc : (if s.txBuf = none then true else s.txc) = (s.txc || decide (s.txBuf = none)) := by
    split_ifs with hbuf <;> simp [hbuf]
  simp only [State.txShiftOut, State.emit, hen, hshift, htxc]

/-- A shift that is not enabled changes nothing. -/
theorem txShiftOut_of_not_enabled (h : s.txen = false ∨ s.txShift = none) : s.txShiftOut = s := by
  rcases txShiftOut_cases s with ⟨b, hen, hshift, -⟩ | ⟨he, -⟩
  · simp [hen, hshift] at h
  · exact he

/-- A load turn of an enabled transmitter whose shift register is idle leaves the buffer empty. -/
theorem txLoad_txBuf (hen : s.txen = true) (hshift : s.txShift = none) : s.txLoad.txBuf = none := by
  rcases txLoad_cases s with ⟨b, -, -, -, he⟩ | ⟨he, hoff⟩
  · rw [he]
  · simpa [he, hen, hshift] using hoff

/-- A shift turn of an enabled transmitter leaves the shift register idle. -/
theorem txShiftOut_txShift (hen : s.txen = true) : s.txShiftOut.txShift = none := by
  rcases txShiftOut_cases s with ⟨b, -, -, he⟩ | ⟨he, hoff⟩
  · rw [he]
  · simpa [he, hen] using hoff

/-- In a live state a turn already chosen is taken. -/
theorem step_of_live_agenda {turn : Config.Turn} {ts : List Config.Turn} (hlive : s.live) (h : s.agenda = turn :: ts) :
    step s = takeTurn turn { s with agenda := ts } := by
  rw [step_of_agenda h, whenLive_of_live hlive]
end

/-- Settles O28: the load turn is the load, enabled or not. -/
theorem txLoadMovesByte : Obligations.TxLoadMovesByte := by
  intro s ts hlive hagenda
  have hstep : step s = .next (State.txLoad { s with agenda := ts }) := step_of_live_agenda hlive hagenda
  rw [hstep]
  exact ⟨fun b hen hshift hbuf => congrArg _ (txLoad_of_enabled hen hshift hbuf),
    fun hoff => congrArg _ (txLoad_of_not_enabled hoff)⟩

/-- Settles O29: the shift turn is the shift, enabled or not. -/
theorem txShiftSendsByte : Obligations.TxShiftSendsByte := by
  intro s ts hlive hagenda
  have hstep : step s = .next (State.txShiftOut { s with agenda := ts }) := step_of_live_agenda hlive hagenda
  rw [hstep]
  exact ⟨fun b hen hshift => congrArg _ (txShiftOut_of_enabled hen hshift),
    fun hoff => congrArg _ (txShiftOut_of_not_enabled hoff)⟩

/-! ### What a step does to the transmit path -/

/-- The data buffer of an enabled transmitter is empty and takes the byte `v`; the rest of the transmit path stays
(42_transmit R210). -/
def TakesIn (v : Byte) (s t : State) : Prop :=
  s.txen = true ∧ s.txBuf = none ∧ t.txBuf = some v ∧ t.txShift = s.txShift ∧ t.txWire = s.txWire

/-- The byte `b` moves from the data buffer to the idle shift register (42_transmit R220). -/
def Loads (b : Byte) (s t : State) : Prop :=
  s.txShift = none ∧ s.txBuf = some b ∧ t.txShift = some b ∧ t.txBuf = none ∧ t.txWire = s.txWire

/-- The byte `b` moves from the shift register to the wire record, the transmitter enabled as before (42_transmit R221). -/
def Sends (b : Byte) (s t : State) : Prop :=
  s.txShift = some b ∧ t.txWire = s.txWire ++ [b] ∧ t.txShift = none ∧ t.txBuf = s.txBuf ∧ t.txen = s.txen

/-- The transmit path stays, and an enabled transmitter with a byte in its buffer stays enabled (41_config_registers R183). -/
def KeepsTransmit (s t : State) : Prop :=
  SameTransmit s t ∧ (s.txen = true → s.txBuf ≠ none → t.txen = true)

theorem SameTransmit.keepsTransmit {s t : State} (hpath : SameTransmit s t) (hen : t.txen = s.txen) : KeepsTransmit s t :=
  ⟨hpath, fun h _ => hen.trans h⟩

theorem SameBlock.keepsTransmit {s t : State} (h : SameBlock s t) : KeepsTransmit s t := by
  obtain ⟨⟨-, -, -, -, htxen, -⟩, -, hpath, -⟩ := h
  exact hpath.keepsTransmit htxen

/-- An operation takes a byte into the transmit path or keeps the path. -/
theorem effect_transmit_cases (i : Instr) (s : State) : (∃ v, TakesIn v s (effect i s)) ∨ KeepsTransmit s (effect i s) := by
  have keep {t : State} (hpath : SameTransmit s t) (hen : t.txen = s.txen) :
      (∃ v, TakesIn v s t) ∨ KeepsTransmit s t := .inr (hpath.keepsTransmit hen)
  cases i <;> simp only [effect]
  case wrUdr v =>
    rcases writeUdr_cases s v with ⟨_, _, he, -⟩ | ⟨he, hen, hbuf⟩ <;> rw [he]
    · exact keep ⟨rfl, rfl, rfl⟩ rfl
    · exact .inl ⟨v, hen, hbuf, rfl, rfl, rfl⟩
  case wrUcsrb v =>
    rcases writeUcsrb_cases s v with ⟨_, _, he⟩ | ⟨he, hbusy, -⟩ <;> rw [he]
    · exact keep ⟨rfl, rfl, rfl⟩ rfl
    · refine .inr ⟨⟨rfl, rfl, rfl⟩, fun hen hfull => ?_⟩
      by_contra hoff
      exact hfull (hbusy hen (Bool.eq_false_of_not_eq_true hoff)).1
  case wrUcsra v => rcases writeUcsra_cases s v with ⟨_, _, he⟩ | he <;> rw [he] <;> exact keep ⟨rfl, rfl, rfl⟩ rfl
  case wrUcsrc v => rcases writeUcsrc_cases s v with ⟨_, _, he⟩ | he <;> rw [he] <;> exact keep ⟨rfl, rfl, rfl⟩ rfl
  case wrUbrrl v => rcases writeUbrrl_cases s v with ⟨_, _, he⟩ | he <;> rw [he] <;> exact keep ⟨rfl, rfl, rfl⟩ rfl
  case wrUbrrh v => rcases writeUbrrh_cases s v with ⟨_, _, he⟩ | he <;> rw [he] <;> exact keep ⟨rfl, rfl, rfl⟩ rfl
  case rdUdr => rcases readUdr_cases s with ⟨-, he⟩ | ⟨_, _, -, he⟩ <;> rw [he] <;> exact keep ⟨rfl, rfl, rfl⟩ rfl
  all_goals exact keep ⟨rfl, rfl, rfl⟩ rfl

/-- A load turn loads a byte or keeps the transmit path. -/
theorem txLoad_transmit_cases (s : State) : (∃ b, Loads b s s.txLoad) ∨ KeepsTransmit s s.txLoad := by
  rcases txLoad_cases s with ⟨b, -, hshift, hbuf, he⟩ | ⟨he, -⟩ <;> rw [he]
  · exact .inl ⟨b, hshift, hbuf, rfl, rfl, rfl⟩
  · exact .inr (SameTransmit.keepsTransmit ⟨rfl, rfl, rfl⟩ rfl)

/-- A shift turn sends a byte or keeps the transmit path. -/
theorem txShiftOut_transmit_cases (s : State) : (∃ b, Sends b s s.txShiftOut) ∨ KeepsTransmit s s.txShiftOut := by
  rcases txShiftOut_cases s with ⟨b, -, hshift, he⟩ | ⟨he, -⟩ <;> rw [he]
  · exact .inl ⟨b, hshift, rfl, rfl, rfl, rfl⟩
  · exact .inr (SameTransmit.keepsTransmit ⟨rfl, rfl, rfl⟩ rfl)

/-- A frame from the line keeps the transmit path. -/
theorem rxFrame_keepsTransmit (s : State) (b : Byte) (ok : Bool) : KeepsTransmit s (s.rxFrame b ok) := by
  rcases rxFrame_cases s b ok with ⟨-, he⟩ | ⟨-, -, he⟩ | ⟨-, -, he⟩ <;> rw [he] <;>
    exact SameTransmit.keepsTransmit ⟨rfl, rfl, rfl⟩ rfl

/-- A step loads a byte, sends a byte, takes a byte in, or keeps the transmit path. -/
theorem step_transmit_cases {s t : State} (h : step s = .next t) :
    (∃ b, Loads b s t) ∨ (∃ b, Sends b s t) ∨ (∃ v, TakesIn v s t) ∨ KeepsTransmit s t := by
  obtain ⟨-, a, w, r, d, s1, hs1, hturn⟩ := step_effect h
  have hcases : (∃ b, Loads b s1 t) ∨ (∃ b, Sends b s1 t) ∨ (∃ v, TakesIn v s1 t) ∨ KeepsTransmit s1 t := by
    rcases hturn with rfl | rfl | ⟨b, ok, rfl⟩ | ⟨s2, ts, hloc, rfl | hmark | ⟨i, rfl⟩⟩
    · exact (txLoad_transmit_cases s1).imp_right (.inr ∘ .inr)
    · exact .inr ((txShiftOut_transmit_cases s1).imp_right .inr)
    · exact .inr (.inr (.inr (rxFrame_keepsTransmit s1 b ok)))
    · exact .inr (.inr (.inr hloc.sameBlock.keepsTransmit))
    · exact .inr (.inr (.inr (hloc.sameBlock.trans hmark.sameBlock).keepsTransmit))
    · have heffect := effect_transmit_cases i (s2.withTasks ts)
      obtain ⟨⟨m, n, res, rfl⟩, -⟩ := hloc
      exact .inr (.inr heffect)
  subst hs1
  exact hcases

/-! ### The order of bytes -/

section
variable {s t : State}

theorem Loads.accepted_eq {b : Byte} (h : Loads b s t) : t.accepted = s.accepted := by
  obtain ⟨hshift, hbuf, hshift', hbuf', hwire⟩ := h
  simp [State.accepted, hshift, hbuf, hshift', hbuf', hwire]

theorem Sends.accepted_eq {b : Byte} (h : Sends b s t) : t.accepted = s.accepted := by
  obtain ⟨hshift, hwire, hshift', hbuf, -⟩ := h
  simp [State.accepted, hshift, hshift', hbuf, hwire]

theorem TakesIn.accepted_eq {v : Byte} (h : TakesIn v s t) : t.accepted = s.accepted ++ [v] := by
  obtain ⟨-, hbuf, hbuf', hshift, hwire⟩ := h
  simp [State.accepted, hbuf, hbuf', hshift, hwire]

theorem KeepsTransmit.accepted_eq (h : KeepsTransmit s t) : t.accepted = s.accepted := by
  obtain ⟨⟨hbuf, hshift, hwire⟩, -⟩ := h
  simp only [State.accepted, hbuf, hshift, hwire]
end

/-- Settles O36: of the four things a step can do to the transmit path, one takes a byte in and one lets the wire record grow. -/
theorem wireOrderIsWriteOrder : Obligations.WireOrderIsWriteOrder := by
  intro s t hstep
  rcases step_transmit_cases hstep with ⟨b, hload⟩ | ⟨b, hsend⟩ | ⟨v, htake⟩ | hkeep
  · have he := hload.accepted_eq
    obtain ⟨-, -, -, -, hwire⟩ := hload
    exact ⟨.inl he, by rw [hwire]⟩
  · have he := hsend.accepted_eq
    obtain ⟨-, hwire, -⟩ := hsend
    exact ⟨.inl he, [b], hwire.symm⟩
  · have he := htake.accepted_eq
    obtain ⟨hen, hbuf, hbuf', -, hwire⟩ := htake
    exact ⟨.inr ⟨v, he, hbuf', hbuf, hen⟩, by rw [hwire]⟩
  · have he := hkeep.accepted_eq
    obtain ⟨⟨-, -, hwire⟩, -⟩ := hkeep
    exact ⟨.inl he, by rw [hwire]⟩

/-! ### Progress of a byte in the data buffer -/

/-- What the transmit path has taken in stays taken in, in its order. -/
theorem accepted_grows {s t : State} (h : step s = .next t) : s.accepted <+: t.accepted := by
  rcases (wireOrderIsWriteOrder s t h).1 with he | ⟨v, he, -⟩
  · rw [he]
  · exact ⟨[v], he.symm⟩

/-- A byte waits in the data buffer of a live, enabled transmitter, and the bytes `taken` have been taken in. -/
structure Waiting (taken : List Byte) (s : State) : Prop where
  live : s.live
  enabled : s.txen = true
  full : s.txBuf ≠ none
  kept : taken <+: s.accepted

/-- The wait is over: the data buffer is empty or a mark is set, and the bytes `taken` have been taken in. -/
def LoadedOrMarked (taken : List Byte) (s : State) : Prop := (s.txBuf = none ∨ ¬ s.live) ∧ taken <+: s.accepted

section
variable {taken : List Byte} {s t : State}

/-- A step lets the byte wait on, and an idle shift register stay idle, or the wait is over. -/
theorem waiting_step_cases (hwait : Waiting taken s) (h : step s = .next t) :
    (Waiting taken t ∧ (s.txShift = none → t.txShift = none)) ∨ LoadedOrMarked taken t := by
  obtain ⟨-, hen, hfull, hkept⟩ := hwait
  have hkept' := hkept.trans (accepted_grows h)
  by_cases hlive : t.live
  · rcases step_transmit_cases h with ⟨b, -, -, -, hempty, -⟩ | ⟨b, -, -, hshift, hbuf, htxen⟩ |
      ⟨v, -, hempty, -⟩ | ⟨⟨hbuf, hshift, -⟩, henabled⟩
    · exact .inr ⟨.inl hempty, hkept'⟩
    · exact .inl ⟨⟨hlive, htxen.trans hen, hbuf ▸ hfull, hkept'⟩, fun _ => hshift⟩
    · exact absurd hempty hfull
    · exact .inl ⟨⟨hlive, henabled hen hfull, hbuf ▸ hfull, hkept'⟩, hshift.trans⟩
  · exact .inr ⟨.inr hlive, hkept'⟩

/-- The transmitter's shift turn leaves the shift register of an enabled transmitter idle. -/
theorem txShift_of_shiftTurn (hen : s.txen = true) (hturn : s.pickTurn.1 = .txShift) (h : step s = .next t) :
    t.txShift = none := by
  obtain ⟨a, w, r, d, hpick⟩ := pickTurn_state s
  have hshift := (step_next_iff.1 h).2
  rw [hturn, hpick] at hshift
  cases hshift
  exact txShiftOut_txShift hen

/-- The transmitter's load turn empties the buffer of an enabled transmitter whose shift register is idle. -/
theorem txBuf_of_loadTurn (hen : s.txen = true) (hidle : s.txShift = none) (hturn : s.pickTurn.1 = .txLoad)
    (h : step s = .next t) : t.txBuf = none := by
  obtain ⟨a, w, r, d, hpick⟩ := pickTurn_state s
  have hload := (step_next_iff.1 h).2
  rw [hturn, hpick] at hload
  cases hload
  exact txLoad_txBuf hen hidle

/-- While a byte waits, the shift register becomes idle, or the wait is over: the shift turn is obliged (42_transmit R223). -/
theorem Waiting.eventually_idle (hwait : Waiting taken s) :
    Eventually (fun t => (Waiting taken t ∧ t.txShift = none) ∨ LoadedOrMarked taken t) s := by
  refine eventually_of_fair 2 (fun _ hw => hw.live) (fun u t hw h => ?_) (fun u t hw hturn h => ?_) s hwait
  · exact (waiting_step_cases hw h).imp And.left .inr
  · exact (waiting_step_cases hw h).imp_left fun ⟨hw', _⟩ => ⟨hw', txShift_of_shiftTurn hw.enabled hturn h⟩

/-- A byte that waits behind an idle shift register is loaded, or a mark is set: the load turn is obliged (42_transmit R223). -/
theorem Waiting.eventually_loaded (hwait : Waiting taken s) (hidle : s.txShift = none) :
    Eventually (LoadedOrMarked taken) s := by
  refine eventually_of_fair (P := fun u => Waiting taken u ∧ u.txShift = none) 1 (fun _ ⟨hw, _⟩ => hw.live)
    (fun u t ⟨hw, hidle⟩ h => ?_) (fun u t ⟨hw, hidle⟩ hturn h => ?_) s ⟨hwait, hidle⟩
  · exact (waiting_step_cases hw h).imp_left fun ⟨hw', hstays⟩ => ⟨hw', hstays hidle⟩
  · have hempty : t.txBuf = none := txBuf_of_loadTurn hw.enabled hidle hturn h
    exact (waiting_step_cases hw h).resolve_left fun ⟨hw', _⟩ => hw'.full hempty
end

/-- Settles O41: first the shift register becomes idle, then the byte is loaded, unless a mark ends the run. -/
theorem bufferedByteIsLoadedOrMarked : Obligations.BufferedByteIsLoadedOrMarked := by
  intro s b hlive hen hbuf
  have hwait : Waiting s.accepted s := ⟨hlive, hen, by simp [hbuf], by rfl⟩
  refine hwait.eventually_idle.bind fun t ht => ?_
  rcases ht with ⟨hwait', hidle⟩ | hover
  · exact hwait'.eventually_loaded hidle
  · exact .now hover

end Sys2Proof.Machine
end

section
/-!
PROOFS. The receive path (43_receive R240 to R252): the read of UDR and what it leaves unchanged, the frame from the line, the
order in which bytes go through.
-/

namespace Sys2Proof.Machine

/-! ### The read of UDR -/

section
variable {s : State}

/-- A read of UDR with a received byte takes the head of the buffer and clears DOR (43_receive R240). -/
theorem readUdr_of_cons {e : RxEntry} {rest : List RxEntry} (h : s.rxFifo = e :: rest) :
    s.readUdr = { s with rxFifo := rest, dor := false, result := some e.data } := by
  simp only [State.readUdr, h, State.reply]

/-- A read of UDR with an empty buffer draws a free byte (43_receive R241). -/
theorem readUdr_of_nil (h : s.rxFifo = []) :
    s.readUdr = { s with result := some (Config.freeByte s.draws), draws := s.draws + 1 } := by
  simp only [State.readUdr, h, State.reply, State.drew, State.drawnByte]
end

/-- Settles O23: the read's effect on an empty buffer. -/
theorem rdUdrEmptyDrawsFreely : Obligations.RdUdrEmptyDrawsFreely :=
  fun _ hlive hempty => exec_of_effect hlive (readUdr_of_nil hempty)

/-- Settles O22: the read's effect on a buffer with a head, and the free draw, which is outside the block, on an empty one. -/
theorem rdUdrPopsOldest : Obligations.RdUdrPopsOldest := by
  refine ⟨rfl, fun s hlive => ⟨fun e rest hfifo => exec_of_effect hlive (readUdr_of_cons hfifo), fun hempty => ?_⟩⟩
  refine ⟨_, _, rdUdrEmptyDrawsFreely s hlive hempty, rfl, ?_⟩
  simp [SameBlock, SameControl, SameDivisor, SameTransmit, SameMarks]

/-- Settles O25: the read draws a free byte or takes the head, and either leaves the listed fields. -/
theorem rdUdrFrame : Obligations.RdUdrFrame := by
  intro s t hexec
  obtain ⟨-, rfl⟩ := exec_next_iff.1 hexec
  rcases readUdr_cases s with ⟨-, he⟩ | ⟨e, rest, hfifo, he⟩
  · simp [effect, he, SameControl, SameDivisor, SameTransmit, SameMarks, SameMemory, SameOrder]
  · simp [effect, he, hfifo, SameControl, SameDivisor, SameTransmit, SameMarks, SameMemory, SameOrder]

/-! ### The frame from the line -/

/-- Settles O30: the line's turn is the frame's arrival, and its three cases are those of the statement. -/
theorem rxFrameDelivered : Obligations.RxFrameDelivered := by
  intro s b stopOk ts hlive hagenda
  have hstep : step s = .next (State.rxFrame { s with agenda := ts } b stopOk) := step_of_live_agenda hlive hagenda
  rw [hstep]
  rcases rxFrame_cases { s with agenda := ts } b stopOk with ⟨hoff, he⟩ | ⟨hen, hfull, he⟩ | ⟨hen, hroom, he⟩ <;> rw [he]
  · rw [if_pos hoff]
  · rw [if_neg (ne_false_of_eq_true hen), if_pos hfull]
  · rw [if_neg (ne_false_of_eq_true hen), if_neg hroom]

/-! ### The order of bytes -/

@[simp] theorem txLoad_rxFifo (s : State) : s.txLoad.rxFifo = s.rxFifo := by
  rcases txLoad_cases s with ⟨b, -, -, -, he⟩ | ⟨he, -⟩ <;> rw [he]

@[simp] theorem txShiftOut_rxFifo (s : State) : s.txShiftOut.rxFifo = s.rxFifo := by
  rcases txShiftOut_cases s with ⟨b, -, -, he⟩ | ⟨he, -⟩ <;> rw [he]

theorem SameBlock.rxFifo_eq {s t : State} (h : SameBlock s t) : t.rxFifo = s.rxFifo := by
  obtain ⟨-, -, -, hfifo, -⟩ := h
  exact hfifo

/-- No operation but the read of UDR touches the receive buffer: each has it in its frame. -/
theorem exec_rxFifo_of_ne_rdUdr {i : Instr} {s t : State} (hi : i ≠ .rdUdr) (h : exec i s = .next t) :
    t.rxFifo = s.rxFifo := by
  cases i with
  | rdUdr => exact absurd rfl hi
  | wrUcsra v | wrUcsrb v | wrUcsrc v =>
    obtain ⟨-, -, hfifo, -⟩ := controlWriteFrame _ s t v (by simp) h
    exact hfifo
  | wrUbrrl v | wrUbrrh v | wrUdr v =>
    obtain ⟨-, -, -, hfifo, -⟩ := dataWriteFrame _ s t v (by simp) h
    exact hfifo
  | rdUcsra | rdUcsrb | rdUcsrc | rdUbrrl | rdUbrrh =>
    obtain ⟨hblock, -⟩ := registerReadFrame _ s t (by simp) h
    exact hblock.rxFifo_eq

/-- An operation leaves the receive buffer as it is, or takes its head, returns the head's byte and clears DOR. -/
theorem exec_rxFifo_cases {i : Instr} {s t : State} (h : exec i s = .next t) :
    t.rxFifo = s.rxFifo ∨ ∃ e, s.rxFifo = e :: t.rxFifo ∧ t.result = some e.data ∧ t.dor = false := by
  by_cases hi : i = .rdUdr
  · subst hi
    obtain ⟨-, rfl⟩ := exec_next_iff.1 h
    rcases readUdr_cases s with ⟨-, he⟩ | ⟨e, rest, hfifo, he⟩ <;> simp only [effect, he]
    · exact .inl rfl
    · exact .inr ⟨e, hfifo, rfl, rfl⟩
  · exact .inl (exec_rxFifo_of_ne_rdUdr hi h)

/-- A frame leaves the receive buffer as it is, or is appended to the buffer of an enabled receiver that has room. -/
theorem rxFrame_rxFifo_cases (s : State) (b : Byte) (ok : Bool) :
    (s.rxFrame b ok).rxFifo = s.rxFifo ∨
      ∃ e, (s.rxFrame b ok).rxFifo = s.rxFifo ++ [e] ∧ s.rxen = true ∧ s.rxFifo.length ≠ Config.rxDepth := by
  rcases rxFrame_cases s b ok with ⟨-, he⟩ | ⟨-, -, he⟩ | ⟨hen, hroom, he⟩ <;> rw [he]
  · exact .inl rfl
  · exact .inl rfl
  · exact .inr ⟨_, rfl, hen, hroom⟩

/-- Settles O37: a transmitter's turn keeps the receive buffer, the line's turn appends, and the host's turn does what its one
operation does. -/
theorem receiveOrderIsDeliveryOrder : Obligations.ReceiveOrderIsDeliveryOrder := by
  intro s t hstep
  obtain ⟨hlive, a, w, r, d, s1, rfl, hturn⟩ := step_effect hstep
  rcases hturn with rfl | rfl | ⟨b, ok, rfl⟩ | ⟨s2, ts, hloc, rfl | hmark | ⟨i, rfl⟩⟩
  · exact .inl (txLoad_rxFifo _)
  · exact .inl (txShiftOut_rxFifo _)
  · exact (rxFrame_rxFifo_cases _ b ok).imp_right .inr
  · exact .inl hloc.sameBlock.rxFifo_eq
  · exact .inl (hloc.sameBlock.trans hmark.sameBlock).rxFifo_eq
  · have hlive2 : (s2.withTasks ts).live := hloc.live hlive
    have hfifo : s2.rxFifo = s.rxFifo := hloc.sameBlock.rxFifo_eq
    have hcases := exec_rxFifo_cases (exec_of_effect (i := i) hlive2 rfl)
    rw [State.withTasks_rxFifo, hfifo] at hcases
    exact hcases.imp_right .inl

end Sys2Proof.Machine
end

section
/-!
PROOFS. What every step keeps of the host (44_host_driver): its two memories in order, and the discipline of its busy-waits
(70_reset_and_hazards R370).
-/

namespace Sys2Proof.Machine

/-! ### The turns of the other agents -/

/-- What a turn of the transmitter or the line leaves: all that is the host's, the marks and TXEN; and it fills no empty data
buffer. -/
structure SparesHost (s t : State) : Prop where
  hostMem : t.hostMem = s.hostMem
  names : t.names = s.names
  tasks : t.tasks = s.tasks
  result : t.result = s.result
  marks : SameMarks s t
  txen : t.txen = s.txen
  txBuf : s.txBuf = none → t.txBuf = none

section
variable {s t : State}

theorem txLoad_sparesHost (s : State) : SparesHost s s.txLoad := by
  rcases txLoad_cases s with ⟨b, -, -, -, he⟩ | ⟨he, -⟩ <;> rw [he]
  · exact ⟨rfl, rfl, rfl, rfl, ⟨rfl, rfl⟩, rfl, fun _ => rfl⟩
  · exact ⟨rfl, rfl, rfl, rfl, ⟨rfl, rfl⟩, rfl, id⟩

theorem txShiftOut_sparesHost (s : State) : SparesHost s s.txShiftOut := by
  rcases txShiftOut_cases s with ⟨b, -, -, he⟩ | ⟨he, -⟩ <;> rw [he] <;>
    exact ⟨rfl, rfl, rfl, rfl, ⟨rfl, rfl⟩, rfl, id⟩

theorem rxFrame_sparesHost (s : State) (b : Byte) (ok : Bool) : SparesHost s (s.rxFrame b ok) := by
  rcases rxFrame_cases s b ok with ⟨-, he⟩ | ⟨-, -, he⟩ | ⟨-, -, he⟩ <;> rw [he] <;>
    exact ⟨rfl, rfl, rfl, rfl, ⟨rfl, rfl⟩, rfl, id⟩

/-- A step is another agent's turn, which spares the host, or the host's turn over its tasks. -/
theorem step_sparesHost_or_runHost (h : step s = .next t) :
    (s.pickTurn.1 ≠ .host ∧ SparesHost s t) ∨
      ∃ a w r d, runHost Config.hostParams s.tasks { s with agenda := a, waited := w, round := r, draws := d } = .next t := by
  have hturn := (step_next_iff.1 h).2
  obtain ⟨a, w, r, d, hpick⟩ := pickTurn_state s
  have hspares : SparesHost s.pickTurn.2 t → SparesHost s t := by
    rw [hpick]
    exact fun ⟨hmem, hnames, htasks, hresult, hmarks, htxen, hbuf⟩ => ⟨hmem, hnames, htasks, hresult, hmarks, htxen, hbuf⟩
  rcases takeTurn_next hturn with ⟨hne, rfl⟩ | ⟨hne, rfl⟩ | ⟨b, ok, hne, rfl⟩ | ⟨-, hrun⟩
  · exact .inl ⟨by simp [hne], hspares (txLoad_sparesHost _)⟩
  · exact .inl ⟨by simp [hne], hspares (txShiftOut_sparesHost _)⟩
  · exact .inl ⟨by simp [hne], hspares (rxFrame_sparesHost _ b ok)⟩
  · rw [hpick] at hrun
    exact .inr ⟨a, w, r, d, hrun⟩

/-! ### The host's memories -/

/-- The order of the memories is a matter of the memories alone. -/
theorem State.MemOk.congr (h : s.MemOk) (hmem : t.hostMem = s.hostMem) (hnames : t.names = s.names) : t.MemOk :=
  ⟨hmem ▸ h.hostMemSorted, hnames ▸ h.namesSorted, hmem ▸ h.outsideWindow⟩

/-- A host turn keeps the memories in order: the local computation does, and neither a mark nor an operation touches them. -/
theorem runHost_memOk {p : Config.HostParams} {ops : List HostOp} (h : runHost p ops s = .next t) (hok : s.MemOk) :
    t.MemOk := by
  obtain ⟨s', ts, ⟨-, hkeep⟩, hend⟩ := runHost_effect h
  rcases hend with rfl | (⟨r, info, rfl⟩ | ⟨r, info, rfl⟩) | ⟨i, rfl⟩
  · exact (hkeep hok).congr rfl rfl
  · exact (hkeep hok).congr rfl rfl
  · exact (hkeep hok).congr rfl rfl
  · obtain ⟨hmem, hnames, -⟩ := effect_host i (s'.withTasks ts)
    exact (hkeep hok).congr hmem hnames

/-- Settles O32: only the host's turn touches the memories, and it keeps them in order. -/
theorem stepKeepsMemories : Obligations.StepKeepsMemories := by
  intro s t hok hstep
  rcases step_sparesHost_or_runHost hstep with ⟨-, hspares⟩ | ⟨a, w, r, d, hrun⟩
  · exact hok.congr hspares.hostMem hspares.names
  · exact runHost_memOk hrun (hok.congr rfl rfl)

/-! ### The polling discipline -/

/-- A request word performed leaves the host's tasks. -/
theorem perform_tasks {w : ReqWord} (h : perform w s = .next t) : t.tasks = s.tasks := by
  rcases (perform_next h).2 with ⟨i, -, rfl⟩ | ⟨r, -, rfl⟩
  · exact (effect_host i s).2.2
  · rfl

/-- An operation's request word is performed as the operation. -/
theorem perform_encode (i : Instr) (s : State) : perform (encode i) s = exec i s :=
  perform_of_decode (decode_eq_op_iff.2 rfl) s

/-- A UCSRA byte that shows UDRE was read with the data buffer empty (10_state R41). -/
theorem txBuf_of_ucsraValue (h : s.ucsraValue.getLsbD 5 = true) : s.txBuf = none :=
  (udre_iff s).1 (ucsraValue_bit5 s ▸ h)

/-- A host outside every busy-wait keeps the discipline. -/
theorem pollInv_of_no_test (h : ∀ op ∈ s.tasks, op.isTest = false) : s.PollInv := by
  refine ⟨fun op hop => h op (List.mem_of_mem_tail hop), fun ops r htasks => ?_⟩
  have htest := h (.waitTest .ucsra 5) (by simp [htasks])
  simp [HostOp.isTest] at htest

/-- An access that leaves the host at a test only by the read it tests leaves the discipline: the byte read is the one UCSRA has
now. -/
theorem pollInv_of_perform {w : ReqWord} (htail : ∀ op ∈ s.tasks.tail, op.isTest = false)
    (hread : ∀ reg bit rest, s.tasks = .waitTest reg bit :: rest → w = encode (readOf reg))
    (h : perform w s = .next t) : t.PollInv := by
  have htasks := perform_tasks h
  refine ⟨htasks ▸ htail, fun ops r hops hresult hbit => ?_⟩
  rw [hread _ _ _ (htasks ▸ hops), perform_encode] at h
  obtain ⟨-, rfl⟩ := exec_next_iff.1 h
  obtain rfl : s.ucsraValue = r := Option.some.inj hresult
  exact txBuf_of_ucsraValue hbit

/-- A host turn over tasks with no test behind their head keeps the discipline. -/
theorem runHost_pollInv {p : Config.HostParams} {ops : List HostOp} (htail : ∀ op ∈ ops.tail, op.isTest = false)
    (h : runHost p ops s = .next t) : t.PollInv := by
  obtain ⟨s', ts, -, ⟨hend, hnone⟩ | ⟨w, hperform, htests⟩⟩ := runHost_next h
  · have htasks : t.tasks = ts := by
      rcases hend with rfl | ⟨r, info, -, rfl⟩ | ⟨r, info, rfl⟩ <;> rfl
    exact pollInv_of_no_test (htasks ▸ hnone htail)
  · exact pollInv_of_perform (htests htail).1 (htests htail).2 hperform

/-- Settles O33: the other agents leave the host where it stands and fill no empty buffer, and the host comes to a test only by
the read it tests. -/
theorem stepKeepsPolling : Obligations.StepKeepsPolling := by
  intro s t hpoll hstep
  rcases step_sparesHost_or_runHost hstep with ⟨-, hspares⟩ | ⟨a, w, r, d, hrun⟩
  · refine ⟨hspares.tasks ▸ hpoll.testsAtHead, fun ops r htasks hresult hbit => ?_⟩
    exact hspares.txBuf (hpoll.udreSeen ops r (hspares.tasks ▸ htasks) (hspares.result ▸ hresult) hbit)
  · exact runHost_pollInv hpoll.testsAtHead hrun
end

end Sys2Proof.Machine
end

section
/-!
PROOFS. The host's turns, one at a time (44_host_driver R271 to R273, R283): what an access and a busy-wait make of a turn, the
waiting read, the initialisation, and the values the signed writers refuse.
-/

namespace Sys2Proof.Machine

/-! ### One turn of the host -/

/-- The byte the last access returned has the bit set. -/
def State.SeesBit (s : State) (bit : Fin 8) : Prop := ∃ r, s.result = some r ∧ r.getLsbD bit = true

section
variable {p : Config.HostParams} {op : HostOp} {rest after : List HostOp} {s s' : State} {reg : Reg} {bit : Fin 8} {i : Instr}

/-- An operation that is complete locally lets the host go on. -/
theorem runHost_of_passed (h : hostMove p op rest s = .passed s') : runHost p (op :: rest) s = runHost p rest s' := by
  simp only [runHost, h]

/-- The request word of an operation has the operation's effect, the host standing behind it. -/
theorem runHost_of_encode (h : hostMove p op rest s = .access (encode i) after s') (hlive : s'.live) :
    runHost p (op :: rest) s = .next (effect i (s'.withTasks after)) := by
  rw [runHost_of_access h, perform_encode]
  exact exec_of_effect hlive rfl

/-- A poll of UCSRA brings its value and leaves the host at the test (30_encoding R118). -/
theorem runHost_of_poll (h : hostMove p op rest s = pollThen .ucsra bit after s) (hlive : s.live) :
    runHost p (op :: rest) s = .next ((s.withTasks (.waitTest .ucsra bit :: after)).reply s.ucsraValue) :=
  runHost_of_encode (i := .rdUcsra) h hlive

/-- A test of a bit that has been read as 1 ends the wait. -/
theorem hostMove_waitTest_of_sees (h : s.SeesBit bit) : hostMove p (.waitTest reg bit) rest s = .passed s := by
  obtain ⟨r, hresult, hbit⟩ := h
  simp only [hostMove, hresult, hbit, if_true]

/-- A test of a bit that has not been read as 1 polls again. -/
theorem hostMove_waitTest_of_not_sees (h : ¬ s.SeesBit bit) :
    hostMove p (.waitTest reg bit) rest s = pollThen reg bit rest s := by
  simp only [hostMove]
  split
  · rfl
  · next r hresult => exact if_neg fun hbit => h ⟨r, hresult, hbit⟩

/-- Behind a test of a bit that has been read as 1 the next operation follows in the same turn. -/
theorem runHost_waitTest_request (h : s.SeesBit bit) (hlive : s.live) :
    runHost p (.waitTest reg bit :: .request (encode i) :: rest) s = .next (effect i (s.withTasks rest)) := by
  rw [runHost_of_passed (hostMove_waitTest_of_sees h), runHost_of_encode rfl hlive]

section
variable {ts : List Config.Turn} (hagenda : s.agenda = .host :: ts) (htasks : s.tasks = op :: rest)
include hagenda htasks

/-- A step on the host's turn runs the host over its next operation and what follows it. -/
theorem step_of_host_cons (hlive : s.live) :
    step s = runHost Config.hostParams (op :: rest) { s with agenda := ts } := by
  rw [step_of_host hlive hagenda, htasks]

/-- A step on the host's turn that comes to a mark of the host's own sets the mark and leaves the host where it stands. -/
theorem step_of_marked (h : hostMove Config.hostParams op rest { s with agenda := ts } = .marked s') (hlive : s.live) :
    step s = .next (s'.withTasks s.tasks) := by
  rw [step_of_host_cons hagenda htasks hlive, runHost_of_marked h, htasks]

/-- A run whose first turn is the host's and issues the request word of an operation goes on from the operation's effect. -/
theorem core_run_of_encode {t : State} (n : Nat)
    (h : hostMove Config.hostParams op rest { s with agenda := ts } = .access (encode i) after { s with agenda := ts })
    (heffect : effect i { s with agenda := ts, tasks := after } = t) (hlive : s.live) :
    Host.Core.run Sys2Proof.core (n + 1) s = Host.Core.run Sys2Proof.core n t := by
  refine core_run_succ n ?_
  rw [step_of_host_cons hagenda htasks hlive, runHost_of_encode h hlive, ← heffect]
  rfl
end
end

/-! ### The signed writers at their minimum values -/

/-- Settles O56: either call's move is the refusal, and the host stays at the call. -/
theorem minimumSignedValuesRefused : Obligations.MinimumSignedValuesRefused := by
  intro s ops ts hlive hagenda
  exact ⟨fun htasks => step_of_marked hagenda htasks rfl hlive, fun htasks => step_of_marked hagenda htasks rfl hlive⟩

/-! ### readByte -/

/-- Settles O51: the test has not seen RXC, so the turn is a poll, and the byte it brings has RXC = 0. -/
theorem readByteWaits : Obligations.ReadByteWaits := by
  intro s ops ts hlive hempty hagenda htasks hunseen
  have hnot : ¬ State.SeesBit { s with agenda := ts } 7 := by
    rintro ⟨r, hresult, hbit⟩
    exact absurd (hunseen r hresult) (by simpa using hbit)
  refine ⟨?_, (ucsraValue_bit7 s).trans (by simp [State.rxc, hempty])⟩
  rw [step_of_host_cons hagenda htasks hlive, runHost_of_poll (hostMove_waitTest_of_not_sees hnot) hlive, ← htasks]
  rfl

/-- Settles O50: the poll brings RXC = 1, so the second turn passes the test and reads the oldest byte. -/
theorem readByteReturnsOldest : Obligations.ReadByteReturnsOldest := by
  intro s e rest ops ts hlive hfifo htasks hagenda
  have hsees : State.SeesBit { s with agenda := ts, result := some s.ucsraValue } 7 :=
    ⟨s.ucsraValue, rfl, (ucsraValue_bit7 s).trans (by simp [State.rxc, hfifo])⟩
  refine Eq.trans (core_run_of_encode (i := .rdUcsra) hagenda htasks 1 rfl rfl hlive) (core_run_succ 0 ?_)
  refine Eq.trans (step_of_host_cons rfl rfl hlive) (Eq.trans (runHost_waitTest_request (i := .rdUdr) hsees hlive) ?_)
  exact congrArg _ (readUdr_of_cons hfifo)

/-! ### The initialisation -/

section
variable {s : State} {v : Byte}

/-- A write of UBRRH with its reserved bits 0 and an idle transmitter completes (41_config_registers R194). -/
theorem writeUbrrh_of_idle (hreserved : ubrrhReserved v = 0) (hidle : s.txBusy = false) :
    s.writeUbrrh v = { s with ubrrh := ubrrhField v, result := none } := by
  simp [State.writeUbrrh, hreserved, hidle, State.done]

/-- A write of UBRRL with an idle transmitter completes (41_config_registers R192). -/
theorem writeUbrrl_of_idle (hidle : s.txBusy = false) : s.writeUbrrl v = { s with ubrrl := v, result := none } := by
  simp [State.writeUbrrl, hidle, State.done]

/-- A write of 0x18 to UCSRB completes in every state and enables receiver and transmitter (41_config_registers R180). -/
theorem writeUcsrb_enables (s : State) :
    s.writeUcsrb 0x18 = { s with rxen := true, txen := true, txb8 := false, result := none } := by
  have hinterrupts : interruptEnables 0x18#8 = 0#3 := by decide
  simp [State.writeUcsrb, hinterrupts, State.done]
end

/-- A divisor of twelve bits has no reserved bit of UBRRH set (40_baud_divisor R143). -/
theorem ubrrhReserved_high {d : ArithWord} (h : d.toNat ≤ 4095) : ubrrhReserved (d.extractLsb' 8 8) = 0 := by
  apply BitVec.eq_of_toNat_eq
  simp only [ubrrhReserved, BitVec.extractLsb'_toNat, Nat.shiftRight_eq_div_pow, BitVec.ofNat_eq_ofNat, BitVec.toNat_ofNat]
  omega

/-- The two bytes of a divisor of twelve bits make the divisor in UBRR (40_baud_divisor R143). -/
theorem toNat_ubrr_of_divisor {d : ArithWord} (h : d.toNat ≤ 4095) :
    (ubrrhField (d.extractLsb' 8 8) ++ d.extractLsb' 0 8).toNat = d.toNat := by
  rw [BitVec.toNat_append, ← Nat.shiftLeft_add_eq_or_of_lt (BitVec.isLt _)]
  simp only [ubrrhField, BitVec.extractLsb'_toNat, Nat.shiftRight_eq_div_pow, Nat.shiftLeft_eq]
  omega

/-- The divisor of a valid pair is the formula, and has twelve bits (40_baud_divisor R142). -/
theorem toNat_div_of_valid {baud clk : ArithWord} (h : divisorValid baud clk = true) :
    (divisorDiv baud clk).toNat = divisorQuotient baud clk ∧ (divisorDiv baud clk).toNat ≤ 4095 := by
  obtain ⟨hbaud, -, -, -, -, hle⟩ := divisorValid_iff.1 h
  rw [toNat_divisorDiv hbaud]
  exact ⟨rfl, hle⟩

/-- `INIT` with a valid pair begins with the high byte of the divisor (44_host_driver R271). -/
theorem hostMove_initUart_valid {p : Config.HostParams} {baud clk : ArithWord} {rest : List HostOp} {s : State}
    (h : divisorValid baud clk = true) :
    hostMove p (.initUart baud clk) rest s = .access (encode (.wrUbrrh (baudDivisor baud clk).hi))
      (.request (encode (.wrUbrrl (baudDivisor baud clk).lo)) :: .enTxRx :: .setFmt :: rest) s :=
  if_pos h

/-- The four writes of `INIT` complete from an idle transmitter, one in each turn of the host. -/
theorem core_run_initSequence {s : State} {op : HostOp} {hi lo : Byte} {ops : List HostOp} {ts : List Config.Turn}
    (hlive : s.live) (hidle : s.txBusy = false) (hreserved : ubrrhReserved hi = 0)
    (hagenda : s.agenda = .host :: .host :: .host :: .host :: ts) (htasks : s.tasks = op :: ops)
    (hmove : ∀ u, hostMove Config.hostParams op ops u =
      .access (encode (.wrUbrrh hi)) (.request (encode (.wrUbrrl lo)) :: .enTxRx :: .setFmt :: ops) u) :
    Host.Core.run Sys2Proof.core 4 s = .next { s with
      ubrrh := ubrrhField hi, ubrrl := lo, rxen := true, txen := true, txb8 := false, ucsrc := 0x06, result := none,
      tasks := ops, agenda := ts } := by
  refine Eq.trans (core_run_of_encode hagenda htasks 3 (hmove _) (writeUbrrh_of_idle hreserved hidle) hlive) ?_
  refine Eq.trans (core_run_of_encode (i := .wrUbrrl lo) rfl rfl 2 rfl (writeUbrrl_of_idle hidle) hlive) ?_
  refine Eq.trans (core_run_of_encode (i := .wrUcsrb 0x18) rfl rfl 1 rfl (writeUcsrb_enables _) hlive) ?_
  exact core_run_of_encode (i := .wrUcsrc 0x06) rfl rfl 0 rfl rfl hlive

/-- Settles O47: a valid divisor has twelve bits, so each of the four writes completes. -/
theorem initUartConfigures : Obligations.InitUartConfigures := by
  intro s baud clk ops ts hlive hidle hvalid htasks hagenda
  obtain ⟨hformula, htwelve⟩ := toNat_div_of_valid hvalid
  have hrun := core_run_initSequence hlive hidle (ubrrhReserved_high htwelve) hagenda htasks
    fun _ => hostMove_initUart_valid hvalid
  exact ⟨_, hrun, rfl, (toNat_ubrr_of_divisor htwelve).trans hformula⟩

end Sys2Proof.Machine
end

section
/-!
PROOFS. `writeByte` (44_host_driver R272): behind its poll the write of UDR never overruns, and with the transmitter enabled it
completes.
-/

namespace Sys2Proof.Machine

/-! ### The write behind the poll -/

/-- A write of UDR over an empty data buffer raises no overrun (42_transmit R212). -/
theorem writeUdr_no_overrun {s : State} (hfault : s.fault = none) (hbuf : s.txBuf = none) (v : Byte) (info : Info) :
    (s.writeUdr v).fault ≠ some (.txOverrun, info) := by
  rcases writeUdr_cases s v with ⟨r, info', he, hfull⟩ | ⟨he, -⟩ <;> rw [he]
  · intro h
    obtain ⟨rfl, -⟩ := Prod.mk.inj (Option.some.inj h)
    exact hfull rfl hbuf
  · simp [hfault]

/-- Settles O35: the test passes only where UDRE was seen, and then the data buffer is empty; else the turn is a poll. -/
theorem polledWriteNeverOverruns : Obligations.PolledWriteNeverOverruns := by
  intro s t b ops ts hpoll hagenda htasks hstep info
  have hlive := (step_next_iff.1 hstep).1
  rw [step_of_host_cons hagenda htasks hlive] at hstep
  by_cases hsees : State.SeesBit { s with agenda := ts } 5
  · rw [runHost_waitTest_request hsees hlive] at hstep
    cases hstep
    obtain ⟨r, hresult, hbit⟩ := hsees
    exact writeUdr_no_overrun (s := State.withTasks { s with agenda := ts } ops) hlive.1
      (hpoll.udreSeen _ r htasks hresult hbit) b info
  · rw [runHost_of_poll (hostMove_waitTest_of_not_sees hsees) hlive] at hstep
    cases hstep
    simp [hlive.1]

/-! ### The busy-wait for UDRE -/

section
variable {s t : State}

theorem SparesHost.live (h : SparesHost s t) (hlive : s.live) : t.live :=
  ⟨h.marks.1.trans hlive.1, h.marks.2.trans hlive.2⟩

/-- Only the host makes the transmit path take a byte in. -/
theorem SparesHost.accepted_eq (h : SparesHost s t) (hstep : step s = .next t) : t.accepted = s.accepted := by
  rcases (wireOrderIsWriteOrder s t hstep).1 with he | ⟨v, -, hfull, hempty, -⟩
  · exact he
  · simp [h.txBuf hempty] at hfull
end

/-- The host is about to begin `writeByte(b)`, the transmitter is enabled, and the bytes `taken` have been taken in. -/
structure Calling (taken : List Byte) (b : Byte) (ops : List HostOp) (s : State) : Prop where
  live : s.live
  enabled : s.txen = true
  tasks : s.tasks = .writeByte b :: ops
  kept : s.accepted = taken

/-- The host waits for UDRE before the write of `b`, and the byte read shows it only with the data buffer empty; the transmitter
is enabled, and the bytes `taken` have been taken in. -/
structure Polling (taken : List Byte) (b : Byte) (ops : List HostOp) (s : State) : Prop where
  live : s.live
  enabled : s.txen = true
  tasks : s.tasks = .waitTest .ucsra 5 :: .request (encode (.wrUdr b)) :: ops
  kept : s.accepted = taken
  udreSeen : s.SeesBit 5 → s.txBuf = none

/-- The byte `b` has been taken in behind `taken`, and the host goes on with `ops`. -/
def Written (taken : List Byte) (b : Byte) (ops : List HostOp) (s : State) : Prop :=
  s.live ∧ s.tasks = ops ∧ s.accepted = taken ++ [b]

section
variable {taken : List Byte} {b : Byte} {ops rest : List HostOp} {op : HostOp} {p : Config.HostParams} {s t : State}

/-- A poll of UDRE leaves the host waiting, with the value of UCSRA read. -/
theorem polling_of_putByte (hlive : s.live) (hen : s.txen = true) (htasks : s.tasks = op :: rest)
    (hmove : hostMove p op rest s = putByte b ops s) (h : runHost p s.tasks s = .next t) :
    Polling s.accepted b ops t ∧ t.result = some s.ucsraValue := by
  rw [htasks, runHost_of_poll hmove hlive] at h
  cases h
  refine ⟨⟨hlive, hen, rfl, rfl, fun ⟨r, hresult, hbit⟩ => ?_⟩, rfl⟩
  obtain rfl : s.ucsraValue = r := Option.some.inj hresult
  exact txBuf_of_ucsraValue hbit

/-- A write of UDR by an enabled transmitter over an empty buffer takes its byte in (42_transmit R210). -/
theorem written_of_writeUdr (hlive : s.live) (hen : s.txen = true) (hbuf : s.txBuf = none) :
    Written s.accepted b s.tasks (s.writeUdr b) := by
  have he : s.writeUdr b = { s with txBuf := some b }.done := by simp [State.writeUdr, hen, hbuf]
  rw [he]
  exact ⟨hlive, rfl, by simp [State.accepted, hbuf]⟩

/-- The host's turn in the wait writes the byte where UDRE has been seen, and else polls again. -/
theorem Polling.runHost_cases (hpoll : Polling taken b ops s) (h : runHost p s.tasks s = .next t) :
    (s.SeesBit 5 ∧ Written taken b ops t) ∨
      (¬ s.SeesBit 5 ∧ Polling taken b ops t ∧ t.result = some s.ucsraValue) := by
  obtain ⟨hlive, hen, htasks, rfl, hseen⟩ := hpoll
  by_cases hsees : s.SeesBit 5
  · rw [htasks, runHost_waitTest_request hsees hlive] at h
    cases h
    exact .inl ⟨hsees, written_of_writeUdr (s := s.withTasks ops) hlive hen (hseen hsees)⟩
  · exact .inr ⟨hsees, polling_of_putByte hlive hen htasks (hostMove_waitTest_of_not_sees hsees) h⟩

/-- What a step can do in the wait: another agent's turn, the write, or one more poll. -/
theorem Polling.step_cases (hpoll : Polling taken b ops s) (h : step s = .next t) :
    (s.pickTurn.1 ≠ .host ∧ SparesHost s t ∧ Polling taken b ops t) ∨ (s.SeesBit 5 ∧ Written taken b ops t) ∨
      (¬ s.SeesBit 5 ∧ Polling taken b ops t ∧ t.result = some s.ucsraValue) := by
  obtain ⟨hlive, hen, htasks, hkept, hseen⟩ := hpoll
  rcases step_sparesHost_or_runHost h with ⟨hturn, hspares⟩ | ⟨a, w, r, d, hrun⟩
  · refine .inl ⟨hturn, hspares, hspares.live hlive, hspares.txen.trans hen, hspares.tasks.trans htasks,
      (hspares.accepted_eq h).trans hkept, fun ⟨r, hresult, hbit⟩ => ?_⟩
    exact hspares.txBuf (hseen ⟨r, hspares.result ▸ hresult, hbit⟩)
  · have hpoll' : Polling taken b ops { s with agenda := a, waited := w, round := r, draws := d } :=
      ⟨hlive, hen, htasks, hkept, hseen⟩
    exact .inr (hpoll'.runHost_cases hrun)

/-- A step in the wait goes on waiting or has written. -/
theorem Polling.step_polling_or_written (hpoll : Polling taken b ops s) (h : step s = .next t) :
    Polling taken b ops t ∨ Written taken b ops t := by
  rcases hpoll.step_cases h with ⟨-, -, ht⟩ | ⟨-, ht⟩ | ⟨-, ht, -⟩
  · exact .inl ht
  · exact .inr ht
  · exact .inl ht

/-- While the host waits, an empty data buffer stays empty, and an idle shift register stays idle but for a load, which empties
the buffer. -/
theorem Polling.keeps_path (hs : Polling taken b ops s) (ht : Polling taken b ops t) (h : step s = .next t) :
    (s.txBuf = none → t.txBuf = none) ∧ (s.txBuf = none ∨ s.txShift = none → t.txBuf = none ∨ t.txShift = none) := by
  rcases step_transmit_cases h with ⟨v, -, -, -, hempty, -⟩ | ⟨v, -, -, hidle, hbuf, -⟩ | ⟨v, htake⟩ | ⟨⟨hbuf, hshift, -⟩, -⟩
  · exact ⟨fun _ => hempty, fun _ => .inl hempty⟩
  · exact ⟨hbuf.trans, fun _ => .inr hidle⟩
  · have hgrows := htake.accepted_eq
    simp [hs.kept, ht.kept] at hgrows
  · exact ⟨hbuf.trans, Or.imp hbuf.trans hshift.trans⟩

/-! ### The four turns that end the wait -/

/-- The wait goes on in a state that meets `K`, or the byte is written. -/
def WaitsOrWritten (taken : List Byte) (b : Byte) (ops : List HostOp) (K : State → Prop) (s : State) : Prop :=
  (Polling taken b ops s ∧ K s) ∨ Written taken b ops s

/-- One stage of the wait: what every step keeps lasts until the obliged turn brings the next stage. -/
theorem Polling.eventually_stage {K K' : State → Prop} (j : Nat) (hpoll : Polling taken b ops s) (hK : K s)
    (keep : ∀ u v, Polling taken b ops u → K u → step u = .next v → Polling taken b ops v → K v)
    (settle : ∀ u v, Polling taken b ops u → K u → u.pickTurn.1 = fairTurn j → step u = .next v →
      Polling taken b ops v → K' v) :
    Eventually (WaitsOrWritten taken b ops K') s := by
  refine eventually_of_fair (P := fun u => Polling taken b ops u ∧ K u) j (fun _ ⟨hu, _⟩ => hu.live)
    (fun u v ⟨hu, hKu⟩ h => ?_) (fun u v ⟨hu, hKu⟩ hturn h => ?_) s ⟨hpoll, hK⟩
  · rcases hu.step_polling_or_written h with hv | hv
    · exact .inl ⟨hv, keep u v hu hKu h hv⟩
    · exact .inr (.inr hv)
  · exact (hu.step_polling_or_written h).imp_left fun hv => ⟨hv, settle u v hu hKu hturn h hv⟩

/-- A wait does not go on in a state in which the byte is written. -/
theorem Polling.not_written (hpoll : Polling taken b ops s) : ¬ Written taken b ops s := by
  rintro ⟨-, -, hwritten⟩
  simp [hpoll.kept] at hwritten

/-- The host's turn brings the value of UCSRA where UDRE has not been seen. -/
theorem Polling.of_hostTurn (hs : Polling taken b ops s) (hturn : s.pickTurn.1 = .host) (h : step s = .next t)
    (ht : Polling taken b ops t) : ¬ s.SeesBit 5 ∧ t.result = some s.ucsraValue := by
  rcases hs.step_cases h with ⟨hne, -⟩ | ⟨-, hwritten⟩ | ⟨hnot, -, hresult⟩
  · exact absurd hturn hne
  · exact absurd hwritten ht.not_written
  · exact ⟨hnot, hresult⟩

/-- The shift turn leaves an idle shift register. -/
theorem Polling.eventually_idle (hpoll : Polling taken b ops s) :
    Eventually (WaitsOrWritten taken b ops fun u => u.txBuf = none ∨ u.txShift = none) s :=
  hpoll.eventually_stage (K := fun _ => True) 2 trivial (fun _ _ _ _ _ _ => trivial)
    fun _ _ hu _ hturn h _ => .inr (txShift_of_shiftTurn hu.enabled hturn h)

/-- Then the load turn leaves an empty data buffer. -/
theorem Polling.eventually_empty (hpoll : Polling taken b ops s) (hidle : s.txBuf = none ∨ s.txShift = none) :
    Eventually (WaitsOrWritten taken b ops fun u => u.txBuf = none) s := by
  refine hpoll.eventually_stage 1 hidle (fun u v hu hK h hv => (hu.keeps_path hv h).2 hK) fun u v hu hK hturn h hv => ?_
  rcases hK with hempty | hidle
  · exact (hu.keeps_path hv h).1 hempty
  · exact txBuf_of_loadTurn hu.enabled hidle hturn h

/-- Then the host's turn reads UDRE as 1. -/
theorem Polling.eventually_sees (hpoll : Polling taken b ops s) (hempty : s.txBuf = none) :
    Eventually (WaitsOrWritten taken b ops fun u => u.SeesBit 5) s := by
  refine hpoll.eventually_stage 0 hempty (fun u v hu hK h hv => (hu.keeps_path hv h).1 hK) fun u v hu hK hturn h hv => ?_
  exact ⟨u.ucsraValue, (hu.of_hostTurn hturn h hv).2, (ucsraValue_bit5 u).trans ((udre_iff u).2 hK)⟩

/-- Then the host's turn writes the byte. -/
theorem Polling.eventually_written (hpoll : Polling taken b ops s) (hsees : s.SeesBit 5) :
    Eventually (WaitsOrWritten taken b ops fun _ => False) s := by
  refine hpoll.eventually_stage (K := fun u => u.SeesBit 5) 0 hsees (fun u v hu hK h hv => ?_) fun u v hu hK hturn h hv => ?_
  · rcases hu.step_cases h with ⟨-, hspares, -⟩ | ⟨-, hwritten⟩ | ⟨hnot, -⟩
    · obtain ⟨r, hresult, hbit⟩ := hK
      exact ⟨r, hspares.result.trans hresult, hbit⟩
    · exact absurd hwritten hv.not_written
    · exact absurd hK hnot
  · exact (hu.of_hostTurn hturn h hv).1 hK

/-- A stage that ends in the next one leads on to where that one leads. -/
theorem eventually_written_of_stage {K : State → Prop} (h : Eventually (WaitsOrWritten taken b ops K) s)
    (next : ∀ u, Polling taken b ops u → K u → Eventually (Written taken b ops) u) :
    Eventually (Written taken b ops) s := by
  refine h.bind fun u hu => ?_
  rcases hu with ⟨hpoll, hK⟩ | hwritten
  · exact next u hpoll hK
  · exact .now hwritten

/-- The wait ends with the byte written. -/
theorem Polling.eventually (hpoll : Polling taken b ops s) : Eventually (Written taken b ops) s :=
  eventually_written_of_stage hpoll.eventually_idle fun _ hpoll hidle =>
    eventually_written_of_stage (hpoll.eventually_empty hidle) fun _ hpoll hempty =>
      eventually_written_of_stage (hpoll.eventually_sees hempty) fun _ hpoll hsees =>
        eventually_written_of_stage (hpoll.eventually_written hsees) fun _ _ hfalse => hfalse.elim

/-- A call stands until the host's turn begins the wait. -/
theorem Calling.step_cases (hcall : Calling taken b ops s) (h : step s = .next t) :
    (s.pickTurn.1 ≠ .host ∧ Calling taken b ops t) ∨ Polling taken b ops t := by
  obtain ⟨hlive, hen, htasks, rfl⟩ := hcall
  rcases step_sparesHost_or_runHost h with ⟨hturn, hspares⟩ | ⟨a, w, r, d, hrun⟩
  · exact .inl ⟨hturn, hspares.live hlive, hspares.txen.trans hen, hspares.tasks.trans htasks, hspares.accepted_eq h⟩
  · exact .inr (polling_of_putByte (s := { s with agenda := a, waited := w, round := r, draws := d }) hlive hen htasks rfl
      hrun).1

/-- The host's turn, which is obliged, begins the wait. -/
theorem Calling.eventually_polling (hcall : Calling taken b ops s) : Eventually (Polling taken b ops) s :=
  eventually_of_fair 0 (fun _ hu => hu.live) (fun _ _ hu h => (hu.step_cases h).imp_left And.right)
    (fun _ _ hu hturn h => (hu.step_cases h).resolve_left fun ⟨hne, _⟩ => hne hturn) s hcall
end

/-- Settles O42: the host's turn begins the wait, and the wait ends with the byte written. -/
theorem writeByteCompletes : Obligations.WriteByteCompletes := by
  intro s b ops hlive hen htasks
  have hcall : Calling s.accepted b ops s := ⟨hlive, hen, htasks, rfl⟩
  exact hcall.eventually_polling.bind fun _ hpoll => hpoll.eventually

end Sys2Proof.Machine
end

section
/-!
PROOFS. The characters of the formatting sequences (44_host_driver R274 to R282, R320): hexadecimal and decimal digits read back,
and every sequence sends its list one `writeByte` after another.
-/

namespace Sys2Proof.Machine

/-! ### Sequences of byte writes -/

section
variable {p : Config.HostParams} {c : Byte} {cs : List Byte} {rest : List HostOp} {s : State}

/-- The writes of a list's bytes are the write of its head with the writes of the others behind it. -/
theorem putBytes_of_eq_cons {bs : List Byte} (h : bs = c :: cs) :
    putBytes bs rest s = hostMove p (.writeByte c) (cs.map .writeByte ++ rest) s := by
  rw [h]
  rfl

/-- Away from its minimum value `writeSigned8` is the writes of its characters (44_host_driver R281, R283). -/
theorem hostMove_writeSigned8 {v : Byte} (h : v ≠ 0x80) :
    hostMove p (.writeSigned8 v) rest s = putBytes (signed8 p.signed8Mode v) rest s := if_neg h

/-- Away from its minimum value `writeSigned16` is the writes of its characters (44_host_driver R282, R283). -/
theorem hostMove_writeSigned16 {v : BitVec 16} (h : v ≠ 0x8000) :
    hostMove p (.writeSigned16 v) rest s = putBytes (signed16 v) rest s := if_neg h
end

/-- Settles O60: each sequence is the writes of its characters. -/
theorem formattersAreByteWrites : Obligations.FormattersAreByteWrites := by
  intro p op c cs rest s hop
  rcases hop with ⟨n, rfl, he⟩ | ⟨v, rfl, he⟩ | ⟨v, rfl, he⟩ | ⟨v, rfl, he⟩ | ⟨v, rfl, he⟩ | ⟨v, rfl, he⟩ |
    ⟨v, rfl, hv, he⟩ | ⟨v, rfl, hv, he⟩
  · exact putBytes_of_eq_cons he
  · exact putBytes_of_eq_cons he
  · exact putBytes_of_eq_cons he
  · exact putBytes_of_eq_cons he
  · exact putBytes_of_eq_cons he
  · exact putBytes_of_eq_cons he
  · exact (hostMove_writeSigned8 hv).trans (putBytes_of_eq_cons he)
  · exact (hostMove_writeSigned16 hv).trans (putBytes_of_eq_cons he)

/-- A byte ends a string exactly when it is 0x00, or one of 128 to 255 where the parameter says so (44_host_driver R274). -/
theorem stringStops_iff {stop : Bool} {c : Byte} :
    stringStops stop c = true ↔ c = 0x00 ∨ (stop = true ∧ 0x80 ≤ c.toNat) := by
  have hhigh : c.getLsbD 7 = true ↔ 0x80 ≤ c.toNat := by
    rw [← BitVec.msb_eq_getLsbD_last, BitVec.msb_eq_decide, decide_eq_true_iff]
  simp only [stringStops, Bool.or_eq_true, Bool.and_eq_true, beq_iff_eq, hhigh]

/-- Settles O59: the move is decided by whether the byte ends the string. -/
theorem writeStringStopsOrSends : Obligations.WriteStringStopsOrSends := by
  intro stop mode s a c rest hread
  simp only [hostMove, hread, stringStops_iff]
  split_ifs <;> rfl

/-! ### Hexadecimal digits -/

/-- The value of an upper-case hexadecimal digit. -/
def hexValue (c : Byte) : Nat := if c.toNat < 0x41 then c.toNat - 0x30 else c.toNat - 0x41 + 10

/-- A digit of a nibble has the nibble's value and is one of "0" to "9" and "A" to "F". -/
theorem hexdigit_spec (n : BitVec 4) : hexValue (hexdigit n) = n.toNat ∧
    (0x30 ≤ (hexdigit n).toNat ∧ (hexdigit n).toNat ≤ 0x39 ∨ 0x41 ≤ (hexdigit n).toNat ∧ (hexdigit n).toNat ≤ 0x46) := by
  revert n
  decide

/-- The two digits of a byte read back behind whatever stands before them, and are digits (44_host_driver R276). -/
theorem hex8_spec (v : Byte) (acc : Nat) :
    (hex8 v).foldl (fun n c => n * 16 + hexValue c) acc = acc * 256 + v.toNat ∧
      ∀ c ∈ hex8 v, (0x30 ≤ c.toNat ∧ c.toNat ≤ 0x39) ∨ (0x41 ≤ c.toNat ∧ c.toNat ≤ 0x46) := by
  constructor
  · have hv : v.toNat < 2 ^ 8 := v.isLt
    simp only [hex8, List.foldl_cons, List.foldl_nil, (hexdigit_spec _).1, BitVec.extractLsb'_toNat,
      Nat.shiftRight_eq_div_pow]
    omega
  · exact List.forall_mem_cons.2 ⟨(hexdigit_spec _).2, List.forall_mem_singleton.2 (hexdigit_spec _).2⟩

/-- Settles O53: the two bytes each read back, and together they are the value. -/
theorem hex16ReadsBack : Obligations.Hex16ReadsBack := by
  intro v
  refine ⟨rfl, ?_, List.forall_mem_append.2 ⟨(hex8_spec _ 0).2, (hex8_spec _ 0).2⟩⟩
  change (hex16 v).foldl (fun n c => n * 16 + hexValue c) 0 = v.toNat
  have hv : v.toNat < 2 ^ 16 := v.isLt
  rw [hex16, List.foldl_append, (hex8_spec _ _).1, (hex8_spec _ _).1]
  simp only [BitVec.extractLsb'_toNat, Nat.shiftRight_eq_div_pow]
  omega

/-! ### Decimal digits -/

/-- Repeated subtraction is division with remainder (44_host_driver R279). -/
theorem subtractWhile_eq {k p v : Nat} (d : Nat) (hp : 1 ≤ p) (hk : v ≤ k) :
    subtractWhile k p v d = (d + v / p, v % p) := by
  induction k generalizing v d with
  | zero =>
    obtain rfl : v = 0 := by omega
    simp [subtractWhile]
  | succ k ih =>
    unfold subtractWhile
    split_ifs with hle
    · rw [ih (d + 1) (by omega), Nat.div_eq_sub_div hp hle, Nat.mod_eq_sub_mod hle]
      congr 1
      omega
    · rw [Nat.div_eq_of_lt (by omega), Nat.mod_eq_of_lt (by omega)]
      rfl

/-- A decimal digit's code is 0x30 and the digit. -/
theorem toNat_digit {d : Nat} (h : d ≤ 9) : (digit d).toNat = 0x30 + d := by
  rw [digit, BitVec.toNat_ofNat]
  omega

/-- The powers of ten from the `k`-th down to ten. -/
def tensDown : Nat → List Nat
  | 0 => []
  | k + 1 => 10 ^ (k + 1) :: tensDown k

/-- The digits by the powers from the `k + 1`-st on: the first digit unless it is a leading zero, then those of the remainder. -/
theorem decimalFrom_tensDown_succ (k v : Nat) (started : Bool) :
    decimalFrom (tensDown (k + 1)) v started =
      if v / 10 ^ (k + 1) ≠ 0 ∨ started = true
      then digit (v / 10 ^ (k + 1)) :: decimalFrom (tensDown k) (v % 10 ^ (k + 1)) true
      else decimalFrom (tensDown k) (v % 10 ^ (k + 1)) false := by
  simp only [tensDown, decimalFrom, subtractWhile_eq 0 (Nat.one_le_pow' _ 9) le_rfl, Nat.zero_add, Bool.or_eq_true,
    decide_eq_true_iff]

section
variable {k v : Nat}

/-- The leading digit of a number below the next power of ten. -/
theorem div_tenPow_le (hv : v < 10 ^ (k + 2)) : v / 10 ^ (k + 1) ≤ 9 :=
  Nat.le_of_lt_succ (Nat.div_lt_of_lt_mul (by rwa [← Nat.pow_succ]))

theorem mod_tenPow_lt (v k : Nat) : v % 10 ^ (k + 1) < 10 ^ (k + 1) := Nat.mod_lt _ (Nat.pow_pos (by decide))

/-- The digits read back, behind whatever stands before them; a leading zero may be left out only where nothing does. -/
theorem foldl_decimalFrom {started : Bool} {acc : Nat} (hv : v < 10 ^ (k + 1)) (hacc : started = true ∨ acc = 0) :
    (decimalFrom (tensDown k) v started).foldl (fun n c => n * 10 + (c.toNat - 0x30)) acc = acc * 10 ^ (k + 1) + v := by
  induction k generalizing v started acc with
  | zero => simp [tensDown, decimalFrom, toNat_digit (Nat.le_of_lt_succ hv)]
  | succ k ih =>
    have hdiv := Nat.div_add_mod v (10 ^ (k + 1))
    rw [decimalFrom_tensDown_succ]
    split_ifs with hfirst
    · rw [List.foldl_cons, ih (mod_tenPow_lt v k) (.inl rfl), toNat_digit (div_tenPow_le hv), Nat.add_sub_cancel_left]
      linear_combination hdiv
    · obtain ⟨hzero, hstart⟩ := not_or.1 hfirst
      obtain rfl := hacc.resolve_left hstart
      rw [ih (mod_tenPow_lt v k) (.inr rfl)]
      simpa [not_not.1 hzero] using hdiv

/-- Every character is a decimal digit. -/
theorem decimalFrom_digits {started : Bool} (hv : v < 10 ^ (k + 1)) :
    ∀ c ∈ decimalFrom (tensDown k) v started, 0x30 ≤ c.toNat ∧ c.toNat ≤ 0x39 := by
  have isDigit {d : Nat} (hd : d ≤ 9) : 0x30 ≤ (digit d).toNat ∧ (digit d).toNat ≤ 0x39 := by
    rw [toNat_digit hd]
    omega
  induction k generalizing v started with
  | zero => simpa [tensDown, decimalFrom] using isDigit (Nat.le_of_lt_succ hv)
  | succ k ih =>
    rw [decimalFrom_tensDown_succ]
    split_ifs
    · exact List.forall_mem_cons.2 ⟨isDigit (div_tenPow_le hv), ih (mod_tenPow_lt v k)⟩
    · exact ih (mod_tenPow_lt v k)

/-- With nothing before them the digits begin with "0" only as the single digit. -/
theorem decimalFrom_no_leading_zero (hv : v < 10 ^ (k + 1)) (hhead : (decimalFrom (tensDown k) v false).head? = some 0x30) :
    decimalFrom (tensDown k) v false = [0x30] := by
  induction k generalizing v with
  | zero => simpa [tensDown, decimalFrom] using hhead
  | succ k ih =>
    rw [decimalFrom_tensDown_succ] at hhead ⊢
    by_cases hzero : v / 10 ^ (k + 1) = 0
    · rw [if_neg (by simp [hzero])] at hhead ⊢
      exact ih (mod_tenPow_lt v k) hhead
    · rw [if_pos (.inl hzero)] at hhead
      have hcode : (digit (v / 10 ^ (k + 1))).toNat = 0x30 := congrArg BitVec.toNat (Option.some.inj hhead)
      rw [toNat_digit (div_tenPow_le hv)] at hcode
      omega

/-- At least the ones digit is sent. -/
theorem decimalFrom_ne_nil {ps : List Nat} {started : Bool} : decimalFrom ps v started ≠ [] := by
  induction ps generalizing v started with
  | nil => simp [decimalFrom]
  | cons p ps ih =>
    unfold decimalFrom
    dsimp only
    split_ifs
    · simp
    · exact ih
end

/-- Settles O54: a value of 16 bits has at most five decimal digits. -/
theorem unsigned16ReadsBack : Obligations.Unsigned16ReadsBack := by
  intro v
  have he : unsigned16 v = decimalFrom (tensDown 4) v.toNat false := rfl
  have hv : v.toNat < 10 ^ (4 + 1) := by omega
  rw [he]
  refine ⟨?_, decimalFrom_digits hv, decimalFrom_no_leading_zero hv, decimalFrom_ne_nil⟩
  rw [foldl_decimalFrom hv (.inr rfl), Nat.zero_mul, Nat.zero_add]

/-! ### Sign and magnitude -/

/-- Settles O55: bit 15 is the sign, and the inverse of the value less 1 is its negation, exact but at the minimum value. -/
theorem signed16IsSignAndMagnitude : Obligations.Signed16IsSignAndMagnitude := by
  intro v hmin
  have hsign : v.getLsbD 15 = true ↔ v.toInt < 0 := by
    rw [← BitVec.msb_eq_getLsbD_last, BitVec.msb_eq_toInt, decide_eq_true_iff]
  refine ⟨fun hneg => ⟨~~~(v - 1), if_pos (hsign.2 hneg), ?_⟩, fun hpos => if_neg ?_⟩
  · have hne : v.toNat ≠ 0x8000 := fun h => hmin (BitVec.eq_of_toNat_eq h)
    rw [BitVec.toInt_eq_toNat_cond] at hneg ⊢
    bv_omega
  · rw [hsign]
    omega

end Sys2Proof.Machine
end

section
/-!
PROOFS. `readLine` (44_host_driver R318): the length it computes is the string's, and what it does with each byte.
-/

namespace Sys2Proof.Machine

/-! ### The string at an address -/

/-- The memory holds `n` bytes other than 0x00 at `a`, and 0x00 behind them. -/
def IsString (m : Memory) (a n : Nat) : Prop :=
  Memory.read m (a + n) = some 0 ∧ ∀ j < n, ∃ c, c ≠ 0 ∧ Memory.read m (a + j) = some c

section
variable {m : Memory} {a n : Nat}

theorem isString_zero : IsString m a 0 ↔ Memory.read m a = some 0 := by simp [IsString]

/-- A string that is not empty is a byte other than 0x00 and a string behind it. -/
theorem isString_succ :
    IsString m a (n + 1) ↔ (∃ c, c ≠ 0 ∧ Memory.read m a = some c) ∧ IsString m (a + 1) n := by
  have hshift (j : Nat) : a + 1 + j = a + (j + 1) := by omega
  simp only [IsString, hshift, Nat.forall_lt_succ_left, Nat.add_zero]
  tauto

/-- The addresses of a string are listed, so it is shorter than the memory's list. -/
theorem IsString.lt_length (h : IsString m a n) : n < m.length := by
  obtain ⟨hend, hbytes⟩ := h
  have hlisted : (List.range (n + 1)).map (a + ·) ⊆ m.map Prod.fst := by
    intro b hb
    obtain ⟨j, hj, rfl⟩ := List.mem_map.1 hb
    rcases (Nat.le_of_lt_succ (List.mem_range.1 hj)).lt_or_eq with hlt | rfl
    · obtain ⟨c, -, hc⟩ := hbytes j hlt
      exact List.mem_map_of_mem (Memory.mem_of_read hc)
    · exact List.mem_map_of_mem (Memory.mem_of_read hend)
  have hdistinct : ((List.range (n + 1)).map (a + ·)).Nodup := List.nodup_range.map (add_right_injective a)
  simpa using (hdistinct.subperm hlisted).length_le

/-- The bounded scan finds the strings shorter than its bound. -/
theorem strlenFrom_eq_some_iff {k r : Nat} : strlenFrom k m a n = some r ↔ ∃ j < k, r = n + j ∧ IsString m a j := by
  induction k generalizing a n with
  | zero => simp [strlenFrom]
  | succ k ih =>
    have hshift (j : Nat) : n + 1 + j = n + (j + 1) := by omega
    simp only [Nat.exists_lt_succ_left, isString_zero, isString_succ]
    unfold strlenFrom
    cases hread : Memory.read m a with
    | none => simp
    | some c =>
      by_cases hc : c = 0#8
      · simpa [hc] using eq_comm
      · simp [hc, ih, hshift]
end

/-- Settles O57: the scan is long enough for every string of the memory. -/
theorem lineLengthIsStringLength : Obligations.LineLengthIsStringLength := by
  intro m buf n
  change strlen m buf = some n ↔ IsString m buf n
  rw [strlen, strlenFrom_eq_some_iff]
  constructor
  · rintro ⟨j, -, rfl, hstring⟩
    rwa [Nat.zero_add]
  · intro hstring
    exact ⟨n, hstring.lt_length.trans (Nat.lt_succ_self _), (Nat.zero_add n).symm, hstring⟩

/-! ### A byte of the line -/

section
variable {s : State} {a : Nat} {v old : Byte}

/-- A store to a listed address is the write (44_host_driver). -/
theorem storeHost_of_read (h : Memory.read s.hostMem a = some old) :
    s.storeHost a v = some { s with hostMem := Memory.write s.hostMem a v } :=
  storeHost_eq_some.2 ⟨⟨old, h⟩, rfl⟩

/-- The line ends with 0x00 at a listed address. -/
theorem endLine_of_read {buf i : Nat} (h : Memory.read s.hostMem (buf + i) = some old) :
    endLine buf i s = .passed { s with hostMem := Memory.write s.hostMem (buf + i) 0 } := by
  simp only [endLine, storeHost_of_read h]
end

/-- Settles O58: a carriage return ends the line; any other byte is stored, and the limit decides what follows. -/
theorem readLineStoresByte : Obligations.ReadLineStoresByte := by
  intro p s buf i n b old next rest hresult hread
  have hmove : hostMove p (.lineByte buf i n) rest s = lineTake buf i n b rest s := by simp only [hostMove, hresult]
  have hstore (hb : b ≠ 0x0D) : lineTake buf i n b rest s =
      lineLoop buf (i + 1) n rest { s with hostMem := Memory.write s.hostMem (buf + i) b } := by
    have hne : b ≠ carriageReturn := hb
    simp only [lineTake, if_neg hne, storeHost_of_read hread]
  rw [hmove]
  refine ⟨fun hb => ?_, fun hb hlt => ?_, fun hb hlimit hnext => ?_⟩
  · obtain rfl : b = carriageReturn := hb
    rw [lineTake, if_pos rfl, endLine_of_read hread]
  · rw [hstore hb, lineLoop, if_pos hlt]
    exact ⟨_, _, rfl, rfl, rfl⟩
  · subst hlimit
    rw [hstore hb, lineLoop, if_neg (Nat.lt_irrefl _)]
    exact endLine_of_read (old := next) ((Memory.read_write_other b (by omega)).trans hnext)

end Sys2Proof.Machine
end

section
/-!
PROOFS. The two marks (60_exceptions R331 to R333): what sets one changes nothing else of the block, and where one is set no agent
has a step.
-/

namespace Sys2Proof.Machine

/-! ### A state with a mark set -/

/-- A state with either mark set is not live. -/
theorem not_live_of_marked {s : State} (h : s.fault ≠ none ∨ s.refused ≠ none) : ¬ s.live :=
  fun ⟨hfault, hrefused⟩ => h.elim (· hfault) (· hrefused)

/-- Settles O10: the step and every operation stand behind the test of the marks. -/
theorem markedStateHasNoStep : Obligations.MarkedStateHasNoStep := by
  intro s hmarked
  have hdead := not_live_of_marked hmarked
  refine ⟨whenLive_marked hdead, fun i => ?_⟩
  rw [exec_eq_effect]
  exact whenLive_marked hdead

/-! ### A step that sets a mark -/

section
variable {s t : State}

/-- With the marks as they were a live state stays live. -/
theorem SameMarks.live (h : SameMarks s t) (hlive : s.live) : t.live :=
  ⟨h.1.trans hlive.1, h.2.trans hlive.2⟩

/-- An operation sets a mark and changes nothing else, or it leaves the marks as they were (60_exceptions R330 to R332). -/
theorem effect_markedOnly_or_sameMarks (i : Instr) (s : State) :
    MarkedOnly s (effect i s) ∨ SameMarks s (effect i s) := by
  have refusedOr {t u : State} (h : (∃ r info, t = s.refuse r info) ∨ t = u) (hu : SameMarks s u) :
      MarkedOnly s t ∨ SameMarks s t := h.imp .inr fun he => Eq.subst he.symm hu
  cases i <;> simp only [effect]
  case wrUcsra v => exact refusedOr (writeUcsra_cases s v) ⟨rfl, rfl⟩
  case wrUcsrb v => exact refusedOr ((writeUcsrb_cases s v).imp_right And.left) ⟨rfl, rfl⟩
  case wrUcsrc v => exact refusedOr (writeUcsrc_cases s v) ⟨rfl, rfl⟩
  case wrUbrrl v => exact refusedOr (writeUbrrl_cases s v) ⟨rfl, rfl⟩
  case wrUbrrh v => exact refusedOr (writeUbrrh_cases s v) ⟨rfl, rfl⟩
  case wrUdr v =>
    rcases writeUdr_cases s v with ⟨r, info, he, -⟩ | ⟨he, -⟩
    · exact .inl (.inl ⟨r, info, he⟩)
    · exact .inr (he ▸ ⟨rfl, rfl⟩)
  case rdUdr => rcases readUdr_cases s with ⟨-, he⟩ | ⟨_, _, -, he⟩ <;> exact .inr (he ▸ ⟨rfl, rfl⟩)
  all_goals exact .inr ⟨rfl, rfl⟩

/-- A host turn that sets a mark leaves the block: its local computation does, and what ends it sets the mark alone
(60_exceptions R339). -/
theorem runHost_sameBlock_of_not_live {p : Config.HostParams} {ops : List HostOp} (hlive : s.live)
    (h : runHost p ops s = .next t) (hdead : ¬ t.live) : SameBlock s t := by
  obtain ⟨s', ts, hloc, hend⟩ := runHost_effect h
  have hlocal : SameBlock s (s'.withTasks ts) := hloc.sameBlock
  have hlive' : (s'.withTasks ts).live := hloc.live hlive
  rcases hend with rfl | hmark | ⟨i, rfl⟩
  · exact absurd hlive' hdead
  · exact hlocal.trans hmark.sameBlock
  · rcases effect_markedOnly_or_sameMarks i (s'.withTasks ts) with hmark | hsame
    · exact hlocal.trans hmark.sameBlock
    · exact absurd (hsame.live hlive') hdead
end

/-- Settles O11: the transmitter and the line set no mark, and the host's turn that sets one leaves the block. -/
theorem markingStepChangesNothingElse : Obligations.MarkingStepChangesNothingElse := by
  intro s t hstep hdead
  have hlive := (step_next_iff.1 hstep).1
  rcases step_sparesHost_or_runHost hstep with ⟨-, hspares⟩ | ⟨a, w, r, d, hrun⟩
  · exact absurd (hspares.marks.live hlive) hdead
  · exact runHost_sameBlock_of_not_live (s := { s with agenda := a, waited := w, round := r, draws := d }) hlive hrun hdead

end Sys2Proof.Machine
end

section
/-!
PROOFS. The reset state (10_state R50, R51, 70_reset_and_hazards R362): both directions of the block stand empty and idle there, and the
host has nothing to do and no memory.
-/

namespace Sys2Proof.Machine

/-- 10_state R51 (a) to (d) of the reset values: the receive buffer is empty, so it is within the opaque depth. -/
theorem State.reset_inv : State.reset.Inv where
  fifoBound := Nat.zero_le _
  rxOffEmpty _ := rfl
  txOffIdle _ := ⟨rfl, rfl⟩
  frameFormat := ⟨rfl, rfl, rfl, rfl⟩
  noInterrupts := ⟨rfl, rfl, rfl⟩

/-- At reset no memory is listed (log 11, 16). -/
theorem State.reset_memOk : State.reset.MemOk where
  hostMemSorted := List.Pairwise.nil
  namesSorted := List.Pairwise.nil
  outsideWindow := List.forall_mem_nil _

/-- At reset the host has nothing to do (log 10), so it stands at no busy-wait. -/
theorem State.reset_pollInv : State.reset.PollInv :=
  pollInv_of_no_test (List.forall_mem_nil _)

/-- Settles O34: the block's part, with neither mark set, then the host's memories and its position. -/
theorem resetMeetsInvariants : Obligations.ResetMeetsInvariants :=
  have hclean : State.reset.cleanEntry := ⟨State.reset_inv, rfl, rfl⟩
  ⟨hclean, State.reset_memOk, State.reset_pollInv⟩

end Sys2Proof.Machine
end

section
/-!
PROOFS. The invariants (a) to (d) of the block (10_state R51): every operation, every transmitter step and every frame from the line
keeps them, so every step does.
-/

namespace Sys2Proof.Machine

/-! ### What keeps the invariants -/

/-- The invariants speak of the block alone. -/
theorem State.Inv.of_sameBlock {s t : State} (h : s.Inv) (hblock : SameBlock s t) : t.Inv := by
  obtain ⟨⟨hrxcie, htxcie, hudrie, hrxen, htxen, hucsz2, -, hucsrc, hu2x, hmpcm⟩, -, ⟨hbuf, hshift, -⟩, hfifo, -⟩ := hblock
  constructor
  · rw [hfifo]
    exact h.fifoBound
  · rw [hrxen, hfifo]
    exact h.rxOffEmpty
  · rw [htxen, hbuf, hshift]
    exact h.txOffIdle
  · rw [hucsrc, hucsz2, hu2x, hmpcm]
    exact h.frameFormat
  · rw [hrxcie, htxcie, hudrie]
    exact h.noInterrupts

section
variable {s : State}

/-- A refused access keeps the invariants. -/
theorem State.Inv.refuse (h : s.Inv) (r : RefusalReason) (info : Info) : (s.refuse r info).Inv :=
  h.of_sameBlock (MarkedOnly.sameBlock (.inr ⟨r, info, rfl⟩))

/-- A faulting access keeps the invariants. -/
theorem State.Inv.raiseFault (h : s.Inv) (r : FaultReason) (info : Info) : (s.raiseFault r info).Inv :=
  h.of_sameBlock (MarkedOnly.sameBlock (.inl ⟨r, info, rfl⟩))

/-- A write of UCSRB that completes turns off no busy transmitter and no receiver that holds data (41_config_registers R183,
R184): what is off after it was off and idle before it, or is idle now. -/
theorem writeUcsrb_inv (h : s.Inv) (v : Byte) : (s.writeUcsrb v).Inv := by
  rcases writeUcsrb_cases s v with ⟨r, info, he⟩ | ⟨he, htx, hrx⟩ <;> rw [he]
  · exact h.refuse r info
  · refine { h with rxOffEmpty := fun hoff => ?rx, txOffIdle := fun hoff => ?tx }
    case rx =>
      cases hen : s.rxen with
      | false => exact h.rxOffEmpty hen
      | true => exact hrx hen hoff
    case tx =>
      cases hen : s.txen with
      | false => exact h.txOffIdle hen
      | true => exact htx hen hoff

/-- A write of UDR fills the buffer of an enabled transmitter only (42_transmit R211). -/
theorem writeUdr_inv (h : s.Inv) (v : Byte) : (s.writeUdr v).Inv := by
  rcases writeUdr_cases s v with ⟨r, info, he, -⟩ | ⟨he, hen, -⟩ <;> rw [he]
  · exact h.raiseFault r info
  · exact { h with txOffIdle := fun hoff => absurd hoff (ne_false_of_eq_true hen) }

/-- A read of UDR takes an entry from a buffer within its depth, and only an enabled receiver has one. -/
theorem readUdr_inv (h : s.Inv) : s.readUdr.Inv := by
  rcases readUdr_cases s with ⟨-, he⟩ | ⟨e, rest, hfifo, he⟩ <;> rw [he]
  · exact { h with }
  · have hbound := h.fifoBound
    have hempty := h.rxOffEmpty
    rw [hfifo] at hbound hempty
    exact { h with
      fifoBound := Nat.le_of_succ_le hbound
      rxOffEmpty := fun hoff => absurd (hempty hoff) (List.cons_ne_nil e rest) }

/-- Every operation keeps the invariants. -/
theorem effect_inv (i : Instr) (h : s.Inv) : (effect i s).Inv := by
  cases i with
  | wrUcsrb v => exact writeUcsrb_inv h v
  | wrUdr v => exact writeUdr_inv h v
  | rdUdr => exact readUdr_inv h
  | wrUcsra v =>
    rcases writeUcsra_cases s v with ⟨r, info, he⟩ | he <;> rw [effect, he]
    · exact h.refuse r info
    · exact { h with }
  | wrUcsrc v =>
    rcases writeUcsrc_cases s v with ⟨r, info, he⟩ | he <;> rw [effect, he]
    · exact h.refuse r info
    · obtain ⟨-, hrest⟩ := h.frameFormat
      exact { h with frameFormat := ⟨rfl, hrest⟩ }
  | wrUbrrl v =>
    rcases writeUbrrl_cases s v with ⟨r, info, he⟩ | he <;> rw [effect, he]
    · exact h.refuse r info
    · exact { h with }
  | wrUbrrh v =>
    rcases writeUbrrh_cases s v with ⟨r, info, he⟩ | he <;> rw [effect, he]
    · exact h.refuse r info
    · exact { h with }
  | rdUcsra | rdUcsrb | rdUcsrc | rdUbrrl | rdUbrrh => exact { h with }

/-- Only an enabled transmitter loads (42_transmit R220). -/
theorem txLoad_inv (h : s.Inv) : s.txLoad.Inv := by
  rcases txLoad_cases s with ⟨b, hen, -, -, he⟩ | ⟨he, -⟩ <;> rw [he]
  · exact { h with txOffIdle := fun hoff => absurd hoff (ne_false_of_eq_true hen) }
  · exact h

/-- Only an enabled transmitter shifts (42_transmit R221). -/
theorem txShiftOut_inv (h : s.Inv) : s.txShiftOut.Inv := by
  rcases txShiftOut_cases s with ⟨b, hen, -, he⟩ | ⟨he, -⟩ <;> rw [he]
  · exact { h with txOffIdle := fun hoff => absurd hoff (ne_false_of_eq_true hen) }
  · exact h

/-- A frame is appended only by an enabled receiver, and only while there is room (43_receive R250 to R252). -/
theorem rxFrame_inv (h : s.Inv) (b : Byte) (ok : Bool) : (s.rxFrame b ok).Inv := by
  rcases rxFrame_cases s b ok with ⟨-, he⟩ | ⟨-, -, he⟩ | ⟨hen, hroom, he⟩ <;> rw [he]
  · exact h
  · exact { h with }
  · have hbound : (s.rxFifo ++ [({ data := b, fe := !ok } : RxEntry)]).length ≤ Config.rxDepth := by
      rw [List.length_append]
      exact Nat.lt_of_le_of_ne h.fifoBound hroom
    exact { h with fifoBound := hbound, rxOffEmpty := fun hoff => absurd hoff (ne_false_of_eq_true hen) }
end

/-- Settles O31: the transmitter's and the line's steps keep the invariants, and the host's turn leaves the block up to its one
operation, which keeps them. -/
theorem stepKeepsInvariants : Obligations.StepKeepsInvariants := by
  intro s t hinv hstep
  obtain ⟨-, a, w, r, d, s1, rfl, hturn⟩ := step_effect hstep
  have hpicked : State.Inv { s with agenda := a, waited := w, round := r, draws := d } := { hinv with }
  rcases hturn with rfl | rfl | ⟨b, ok, rfl⟩ | ⟨s2, ts, hloc, hend⟩
  · exact txLoad_inv hpicked
  · exact txShiftOut_inv hpicked
  · exact rxFrame_inv hpicked b ok
  · have hlocal : (s2.withTasks ts).Inv := hpicked.of_sameBlock hloc.sameBlock
    rcases hend with rfl | hmark | ⟨i, rfl⟩
    · exact hlocal
    · exact hlocal.of_sameBlock hmark.sameBlock
    · exact effect_inv i hlocal

end Sys2Proof.Machine
end

section
/-!
PROOFS. The two bytes of a valid divisor (40_baud_divisor R143), and the values the spec works out: the decoder vectors
(95_test_vectors section 2.2) and the table of validity boundaries (40_baud_divisor R149).
-/

namespace Sys2Proof.Machine

/-- The two bytes of a divisor of sixteen bits make the divisor (40_baud_divisor R143). -/
theorem toNat_append_divisorBytes {d : ArithWord} (h : d.toNat < 2 ^ 16) :
    (d.extractLsb' 8 8 ++ d.extractLsb' 0 8).toNat = d.toNat := by
  have hbytes : d.extractLsb' 8 8 ++ d.extractLsb' 0 8 = d.extractLsb' 0 (8 + 8) :=
    BitVec.extractLsb'_append_extractLsb'_eq_extractLsb' rfl
  rw [hbytes, BitVec.extractLsb'_toNat, Nat.shiftRight_zero]
  exact Nat.mod_eq_of_lt h

/-- Settles O45: a valid divisor has twelve bits. -/
theorem validDivisorSplits : Obligations.ValidDivisorSplits := by
  intro baud clk hvalid
  obtain ⟨-, htwelve⟩ := toNat_div_of_valid hvalid
  exact ⟨ubrrhReserved_high htwelve, toNat_append_divisorBytes (by omega)⟩

/-- Settles O5: the decoder run on each word. -/
theorem decoderVectors : Obligations.DecoderVectors := by
  unfold Obligations.DecoderVectors
  decide

/-- Settles O46: the unit run on each pair of the table; no baud rate there is 0, so no free value is asked for (log 18). -/
theorem divisorBoundaries : Obligations.DivisorBoundaries := by
  unfold Obligations.DivisorBoundaries
  decide

end Sys2Proof.Machine
end
